-- ==== Sys2Proof/Word.lean ====
section
/-! DEFINITION. The value types of the block (00_scope.md rules R7, R11, R16). The block has no machine word: levels and
codes are bits, every other value is a number. Naturals are `Nat` throughout: a
timestamp or duration `Time` in ticks of unstated length, unbounded (R11, R144); a pin id `PinId`, or the sentinel `PIN_NONE`
where a rule allows it; an encoder's number `InstNum`, `1 .. 2^NUM_W - 1`, `0` never naming one (R16, R61). -/

namespace Sys2Proof

/-- Positions, bounds and steps: exact rationals (R7, R11, R164; the spec's decision D1). -/
abbrev Num := Rat

/-- A raw sampled electrical level, never inverted (R16). -/
abbrev Level := BitVec 1

/-- `NUM_W`, the width in bits of an encoder's number (R7, R81: the field `W[23:16]`). -/
def numW : Nat := 8

end Sys2Proof
end

