-- ==== Sys2Proof/Syntax.lean ====
section
/-! DEFINITION. The thirteen operations of the block (00_scope.md rule R6), one constructor per row of
spec/opcode_table.json, and the stimulus items they are written with (30_encoding.md rule R81). -/

namespace Sys2Proof

/-- Which decoder an encoder uses (R16, R22): the edge-stepped table or the counting peripheral. -/
inductive Strategy where
  | a
  | b
deriving DecidableEq, Repr, Inhabited

/-- The two watch-points of the counting peripheral, at +1 and -1 (R120, R122). -/
inductive WatchPoint where
  | plus
  | minus
deriving DecidableEq, Repr, Inhabited

/-- An answer of the environment: the event bus's to a publish, the platform's to a resource request (R15). -/
inductive Answer where
  | ok
  | fail
deriving DecidableEq, Repr, Inhabited

/-- The direction flag (R16, R51). -/
inductive Dir where
  | none
  | cw
  | ccw
deriving DecidableEq, Repr, Inhabited

/-- The configuration record of `INIT` (R8, R89). -/
structure InitCfg where
  num : Nat
  strategy : Strategy
  prio : Nat
  stack : Nat
  qcap : Nat
  pinA : Nat
  pinB : Nat
  pinBtn : Nat
  pullup : Bool
  deb : Nat
  min : Num
  max : Num
  step : Num
deriving DecidableEq, Repr

/-- The operations (R6). The operands that are environment draws (R15) are `code`, `w`, `lvl`, `now`, `pub`, `free`,
`plat` and `lvl0`. -/
inductive Instr where
  /-- `EDGE_AB n, code` (R104) -/
  | edgeAb (n : Nat) (code : BitVec 2)
  /-- `WP n, w` (R122) -/
  | wp (n : Nat) (w : WatchPoint)
  /-- `EDGE_BTN n, lvl, now` (R136) -/
  | edgeBtn (n : Nat) (lvl : Level) (now : Nat)
  /-- `DEQ` (R175) -/
  | deq
  /-- `PUB pub, free` (R177) -/
  | pub (answer : Answer) (free : Nat)
  /-- `INIT cfg, plat, lvl0, now` (R191) -/
  | init (cfg : InitCfg) (plat : Answer) (lvl0 : Level) (now : Nat)
  /-- `DEINIT n` (R200) -/
  | deinit (n : Nat)
  /-- `SET n, p` (R155) -/
  | set (n : Nat) (p : Num)
  /-- `GET n` (R156) -/
  | get (n : Nat)
  /-- `RESET n` (R158) -/
  | reset (n : Nat)
  /-- `REINIT n, min2, max2, step2` (R160) -/
  | reinit (n : Nat) (min2 max2 step2 : Num)
  /-- `GET_STATS` (R205) -/
  | getStats
  /-- `RESET_STATS` (R206) -/
  | resetStats
deriving DecidableEq, Repr

/-- One item of a stimulus sequence: a stimulus word, or an operand value that follows one (R81). Operand values are
not bit vectors: a natural, a `Time` and a pin id are a `natural`, a `Num` is a `num`. -/
inductive Item where
  | word (w : BitVec 32)
  | natural (v : Nat)
  | num (v : Num)
deriving DecidableEq, Repr

/-- The encoder an operation names, if it names one: the field `n` of its word (R82). -/
def Instr.number : Instr → Option Nat
  | .edgeAb n _ => some n
  | .wp n _ => some n
  | .edgeBtn n _ _ => some n
  | .deq => none
  | .pub _ _ => none
  | .init cfg _ _ _ => some cfg.num
  | .deinit n => some n
  | .set n _ => some n
  | .get n => some n
  | .reset n => some n
  | .reinit n _ _ _ => some n
  | .getStats => none
  | .resetStats => none

end Sys2Proof
end

