-- ==== Sys2Proof/Config.lean ====
section
/-! DEFINITION. The implementation parameters (00_scope.md rule R7) as one record of plain data, and the platform's own
values of them, which the source leaves open and nothing in Lean can evaluate (DESIGN CHOICE, logs 4 and 5). -/

namespace Sys2Proof

/-- One entry of the transition table: the next state, a row index, and the direction flag (R84, R102). An entry whose
next state is above 5, or whose direction is the reserved code, cannot be written (R102, U3). -/
structure Entry where
  next : Fin 6
  dir : Dir
deriving DecidableEq, Repr, Inhabited

/-- One row of the table: the entries for the level codes 0, 1, 2, 3 (R102). -/
structure Row where
  code0 : Entry
  code1 : Entry
  code2 : Entry
  code3 : Entry
deriving DecidableEq, Repr, Inhabited

/-- The transition table `TT`, 6 rows by 4 columns (R47, R102). -/
structure Table where
  row0 : Row
  row1 : Row
  row2 : Row
  row3 : Row
  row4 : Row
  row5 : Row
deriving DecidableEq, Repr, Inhabited

/-- Which pin is bit 1 of the level code (R7, R83). -/
inductive CodeOrder where
  | ba
  | ab
deriving DecidableEq, Repr, Inhabited

/-- Which watch-point is clockwise (R7, R124). -/
inductive WpPolarity where
  | plusIsCw
  | plusIsCcw
deriving DecidableEq, Repr, Inhabited

/-- The parameters of the block (R7). `NUM_W`, `Num` and `Time` are fixed in Word.lean. No rule reads `publishWait` or
`tick`; that a duration is any `Num`, its unit and sign left open, is the model's (DESIGN CHOICE, log 17). -/
structure Config where
  maxInstances : Nat
  pinCount : Nat
  pinNone : Nat
  stackMin : Nat
  publishWait : Num
  tick : Num
  tt : Table
  codeOrder : CodeOrder
  wpPolarity : WpPolarity
deriving DecidableEq, Repr

/-- The constraints of R7 on the parameters. That the table has its shape (R102) holds by its type. Nothing is asked of the two
durations: "about 1 second" binds no value here (DESIGN CHOICE, log 17). -/
def Config.legal (c : Config) : Bool :=
  decide (1 ≤ c.maxInstances) && decide (2 ≤ c.pinCount) && decide (c.pinCount ≤ c.pinNone)

/-- The platform's `MAX_INSTANCES`, less one. OPEN (R7, D25). -/
opaque Config.instancesAboveOne : Nat

/-- The platform's `PIN_COUNT`, less two. OPEN (R7, D25). -/
opaque Config.pinsAboveTwo : Nat

/-- How far the platform's `PIN_NONE` lies above its pins. OPEN (R7, D25). -/
opaque Config.pinNoneOffset : Nat

/-- The platform's `STACK_MIN`. OPEN (R7, D25). -/
opaque Config.platformStackMin : Nat

/-- The platform's `PUBLISH_WAIT`. OPEN; no rule reads it (R7, D25, U8). -/
opaque Config.platformPublishWait : Num

/-- The length of one tick. OPEN; no rule reads it (R7, D9). -/
opaque Config.platformTick : Num

/-- The platform's transition table. OPEN (R7, R102, U2). -/
opaque Config.platformTable : Table

/-- The parameters of the platform: any legal values of what the source leaves open, and the two the spec fixes,
`CODE_ORDER = BA` (D3) and `WP_POLARITY = PLUS_IS_CW` (D7). -/
def Config.platform : Config where
  maxInstances := 1 + Config.instancesAboveOne
  pinCount := 2 + Config.pinsAboveTwo
  pinNone := 2 + Config.pinsAboveTwo + Config.pinNoneOffset
  stackMin := Config.platformStackMin
  publishWait := Config.platformPublishWait
  tick := Config.platformTick
  tt := Config.platformTable
  codeOrder := .ba
  wpPolarity := .plusIsCw

end Sys2Proof
end

