-- ==== Sys2Proof/WellFormed.lean ====
section
/-! DEFINITION. Which operations can be written as a stimulus word: the number must fit the field `n` of `NUM_W` bits
(30_encoding.md rule R81). `0` fits: it is legal to decode (R91). Every other operand is legal by its type. -/

namespace Sys2Proof

/-- The number fits `W[23:16]` (R81, R91). -/
def numberFits (n : Nat) : Bool := decide (n < 2 ^ numW)

/-- An operation that a stimulus word can carry. -/
def Instr.wellFormed : Instr → Bool
  | .edgeAb n _ => numberFits n
  | .wp n _ => numberFits n
  | .edgeBtn n _ _ => numberFits n
  | .deq => true
  | .pub _ _ => true
  | .init cfg _ _ _ => numberFits cfg.num
  | .deinit n => numberFits n
  | .set n _ => numberFits n
  | .get n => numberFits n
  | .reset n => numberFits n
  | .reinit n _ _ _ => numberFits n
  | .getStats => true
  | .resetStats => true

end Sys2Proof
end

