-- ==== Sys2Proof/Decode.lean ====
section
/-! DEFINITION. Decoding and encoding of stimulus sequences (30_encoding.md rules R81, R82, R88, R91), and the
pseudo-operations of R94. -/

namespace Sys2Proof

/-- The thirteen opcodes of the map (R88). -/
inductive Opcode where
  | edgeAb
  | wp
  | edgeBtn
  | deq
  | pub
  | init
  | deinit
  | set
  | get
  | reset
  | reinit
  | getStats
  | resetStats
deriving DecidableEq, Repr

/-- One row of the opcode map: the words `w` with `w &&& mask = pattern` (R88). -/
structure OpcodeRow where
  opcode : Opcode
  pattern : BitVec 32
  mask : BitVec 32
deriving DecidableEq, Repr

/-- Why the decoder refuses a stimulus sequence. It raises each of these; all are safe: the run stops. -/
inductive Reject where
  /-- The sequence is at its end: no agent brings an operation (R70). -/
  | noStimulus
  /-- An operand value stands where a word must stand (R81). -/
  | notAWord
  /-- The word matches no row of the opcode map (R91, U18). -/
  | illegalWord (w : BitVec 32)
  /-- The values after the word are not those of its operation, in number or type (R81, R82; DESIGN CHOICE, log 11). -/
  | wrongOperands (op : Opcode)
deriving DecidableEq, Repr

/-- The opcode map, `match` and `mask` as the spec prints them (R88). -/
def opcodeRows : List OpcodeRow :=
  [⟨.edgeAb, 0x01000000#32, 0xFF00FFFC#32⟩,
   ⟨.wp, 0x02000000#32, 0xFF00FFFE#32⟩,
   ⟨.edgeBtn, 0x03000000#32, 0xFF00FFFE#32⟩,
   ⟨.deq, 0x08000000#32, 0xFFFFFFFF#32⟩,
   ⟨.pub, 0x09000000#32, 0xFFFFFFFE#32⟩,
   ⟨.init, 0x10000000#32, 0xFF00FFF0#32⟩,
   ⟨.deinit, 0x11000000#32, 0xFF00FFFF#32⟩,
   ⟨.set, 0x12000000#32, 0xFF00FFFF#32⟩,
   ⟨.get, 0x13000000#32, 0xFF00FFFF#32⟩,
   ⟨.reset, 0x14000000#32, 0xFF00FFFF#32⟩,
   ⟨.reinit, 0x15000000#32, 0xFF00FFFF#32⟩,
   ⟨.getStats, 0x16000000#32, 0xFFFFFFFF#32⟩,
   ⟨.resetStats, 0x17000000#32, 0xFFFFFFFF#32⟩]

/-- `w` is a word of the row (R88). -/
def OpcodeRow.admits (r : OpcodeRow) (w : BitVec 32) : Bool := w &&& r.mask == r.pattern

/-- The operation a word selects (R88), or none: the word is illegal (R91). -/
def selectOpcode (w : BitVec 32) : Option Opcode :=
  match opcodeRows.find? (fun r => r.admits w) with
  | some r => some r.opcode
  | none => none

/-- The field `n`, `W[23:16]` (R81). -/
def wordNumber (w : BitVec 32) : Nat := (w.extractLsb' 16 8).toNat

/-- The field `imm`, `W[15:0]` (R81). -/
def wordImm (w : BitVec 32) : BitVec 16 := w.extractLsb' 0 16

/-- One bit of `imm` (R82). -/
def immBit (w : BitVec 32) (k : Nat) : BitVec 1 := (wordImm w).extractLsb' k 1

/-- `0` = A, `1` = B (R82). -/
def Strategy.ofBit (b : BitVec 1) : Strategy := if b = 0#1 then .a else .b

/-- `0` = A, `1` = B (R82). -/
def Strategy.bit : Strategy → BitVec 1
  | .a => 0#1
  | .b => 1#1

/-- `0` = PLUS, `1` = MINUS (R82). -/
def WatchPoint.ofBit (b : BitVec 1) : WatchPoint := if b = 0#1 then .plus else .minus

/-- `0` = PLUS, `1` = MINUS (R82). -/
def WatchPoint.bit : WatchPoint → BitVec 1
  | .plus => 0#1
  | .minus => 1#1

/-- `0` = ok, `1` = fail (R82). -/
def Answer.ofBit (b : BitVec 1) : Answer := if b = 0#1 then .ok else .fail

/-- `0` = ok, `1` = fail (R82). -/
def Answer.bit : Answer → BitVec 1
  | .ok => 0#1
  | .fail => 1#1

/-- The pull-up flag is set when its bit is `1` (R82). -/
def flagOfBit (b : BitVec 1) : Bool := b == 1#1

/-- The pull-up flag's bit (R82). -/
def bitOfFlag (f : Bool) : BitVec 1 := if f then 1#1 else 0#1

/-- The operand values of `INIT`, in order: `prio`, `stack`, `qcap`, `pin_a`, `pin_b`, `pin_btn`, `deb`, `min`, `max`,
`step`, `now`; the other operands are fields of the word (R82). -/
def decodeInit (w : BitVec 32) : List Item → Except Reject (Instr × List Item)
  | .natural prio :: .natural stack :: .natural qcap :: .natural pinA :: .natural pinB :: .natural pinBtn ::
      .natural deb :: .num min :: .num max :: .num step :: .natural now :: rest =>
    .ok (.init
      { num := wordNumber w, strategy := Strategy.ofBit (immBit w 0), prio := prio, stack := stack, qcap := qcap,
        pinA := pinA, pinB := pinB, pinBtn := pinBtn, pullup := flagOfBit (immBit w 1), deb := deb, min := min,
        max := max, step := step }
      (Answer.ofBit (immBit w 2)) (immBit w 3) now, rest)
  | _ => .error (.wrongOperands .init)

/-- The operation of a word whose row is known, with the operand values that follow it (R82). -/
def decodeOperands (op : Opcode) (w : BitVec 32) (items : List Item) : Except Reject (Instr × List Item) :=
  match op with
  | .edgeAb => .ok (.edgeAb (wordNumber w) ((wordImm w).extractLsb' 0 2), items)
  | .wp => .ok (.wp (wordNumber w) (WatchPoint.ofBit (immBit w 0)), items)
  | .edgeBtn =>
    match items with
    | .natural now :: rest => .ok (.edgeBtn (wordNumber w) (immBit w 0) now, rest)
    | _ => .error (.wrongOperands .edgeBtn)
  | .deq => .ok (.deq, items)
  | .pub =>
    match items with
    | .natural free :: rest => .ok (.pub (Answer.ofBit (immBit w 0)) free, rest)
    | _ => .error (.wrongOperands .pub)
  | .init => decodeInit w items
  | .deinit => .ok (.deinit (wordNumber w), items)
  | .set =>
    match items with
    | .num p :: rest => .ok (.set (wordNumber w) p, rest)
    | _ => .error (.wrongOperands .set)
  | .get => .ok (.get (wordNumber w), items)
  | .reset => .ok (.reset (wordNumber w), items)
  | .reinit =>
    match items with
    | .num min2 :: .num max2 :: .num step2 :: rest => .ok (.reinit (wordNumber w) min2 max2 step2, rest)
    | _ => .error (.wrongOperands .reinit)
  | .getStats => .ok (.getStats, items)
  | .resetStats => .ok (.resetStats, items)

/-- The decoder: the first operation of a stimulus sequence and what follows it (R81, R88), or why it is refused. -/
def decode : List Item → Except Reject (Instr × List Item)
  | [] => .error .noStimulus
  | .word w :: items =>
    match selectOpcode w with
    | some op => decodeOperands op w items
    | none => .error (.illegalWord w)
  | .natural _ :: _ => .error .notAWord
  | .num _ :: _ => .error .notAWord

/-- The opcode number, `W[31:24]` (R88). -/
def Opcode.code : Opcode → BitVec 8
  | .edgeAb => 0x01#8
  | .wp => 0x02#8
  | .edgeBtn => 0x03#8
  | .deq => 0x08#8
  | .pub => 0x09#8
  | .init => 0x10#8
  | .deinit => 0x11#8
  | .set => 0x12#8
  | .get => 0x13#8
  | .reset => 0x14#8
  | .reinit => 0x15#8
  | .getStats => 0x16#8
  | .resetStats => 0x17#8

/-- The opcode of an operation (R88). -/
def Instr.opcode : Instr → Opcode
  | .edgeAb _ _ => .edgeAb
  | .wp _ _ => .wp
  | .edgeBtn _ _ _ => .edgeBtn
  | .deq => .deq
  | .pub _ _ => .pub
  | .init _ _ _ _ => .init
  | .deinit _ => .deinit
  | .set _ _ => .set
  | .get _ => .get
  | .reset _ => .reset
  | .reinit _ _ _ _ => .reinit
  | .getStats => .getStats
  | .resetStats => .resetStats

/-- The field `imm` of an operation, reserved bits `0` (R82). -/
def Instr.imm : Instr → BitVec 16
  | .edgeAb _ code => 0#14 ++ code
  | .wp _ w => 0#15 ++ w.bit
  | .edgeBtn _ lvl _ => 0#15 ++ lvl
  | .deq => 0#16
  | .pub answer _ => 0#15 ++ answer.bit
  | .init cfg plat lvl0 _ => 0#12 ++ lvl0 ++ plat.bit ++ bitOfFlag cfg.pullup ++ cfg.strategy.bit
  | .deinit _ => 0#16
  | .set _ _ => 0#16
  | .get _ => 0#16
  | .reset _ => 0#16
  | .reinit _ _ _ _ => 0#16
  | .getStats => 0#16
  | .resetStats => 0#16

/-- The operand values of an operation, in order (R82). -/
def Instr.operands : Instr → List Item
  | .edgeAb _ _ => []
  | .wp _ _ => []
  | .edgeBtn _ _ now => [.natural now]
  | .deq => []
  | .pub _ free => [.natural free]
  | .init cfg _ _ now =>
    [.natural cfg.prio, .natural cfg.stack, .natural cfg.qcap, .natural cfg.pinA, .natural cfg.pinB,
     .natural cfg.pinBtn, .natural cfg.deb, .num cfg.min, .num cfg.max, .num cfg.step, .natural now]
  | .deinit _ => []
  | .set _ p => [.num p]
  | .get _ => []
  | .reset _ => []
  | .reinit _ min2 max2 step2 => [.num min2, .num max2, .num step2]
  | .getStats => []
  | .resetStats => []

/-- The stimulus word `op[31:24] n[23:16] imm[15:0]` of an operation (R81). -/
def encodeWord (i : Instr) : BitVec 32 :=
  i.opcode.code ++ BitVec.ofNat 8 (i.number.getD 0) ++ i.imm

/-- The encoder: an operation as a word and its operand values (R81). -/
def encode (i : Instr) : List Item := .word (encodeWord i) :: i.operands

/-- The type of an operand value: naturals, pin ids and times are carried as naturals (R82). -/
inductive OperandKind where
  | natural
  | num
deriving DecidableEq, Repr

/-- The operand values that follow a word, by type and in order: their number is fixed by the opcode (R81, R82). -/
def Opcode.operandKinds : Opcode → List OperandKind
  | .edgeAb => []
  | .wp => []
  | .edgeBtn => [.natural]
  | .deq => []
  | .pub => [.natural]
  | .init => [.natural, .natural, .natural, .natural, .natural, .natural, .natural, .num, .num, .num, .natural]
  | .deinit => []
  | .set => [.num]
  | .get => []
  | .reset => []
  | .reinit => [.num, .num, .num]
  | .getStats => []
  | .resetStats => []

/-- The zero value of an operand type. -/
def OperandKind.zero : OperandKind → Item
  | .natural => .natural 0
  | .num => .num 0

/-- The type of an operand item, if it is one (R81). -/
def Item.kind : Item → Option OperandKind
  | .word _ => none
  | .natural _ => some .natural
  | .num _ => some .num

/-- The operand values of zero that complete a word (DESIGN CHOICE, log 14). -/
def zeroOperands (w : BitVec 32) : List Item :=
  match selectOpcode w with
  | some op => op.operandKinds.map OperandKind.zero
  | none => []

/-- The stimulus items of the table's word number `w`, every operand value after the word zero (DESIGN CHOICE, log 14). -/
def tableItems (nbits w : Nat) : List Item :=
  let W := BitVec.ofNat 32 (w % 2 ^ nbits)
  .word W :: zeroOperands W

/-- The operation the decoder reads from a word of spec/opcode_table.json, its operand values zero. -/
def decodeTableWord (nbits w : Nat) : Option Instr :=
  match decode (tableItems nbits w) with
  | .ok (i, _) => some i
  | .error _ => none

/-- `CW n` on a Strategy B encoder (R94 a; with `WP_POLARITY = PLUS_IS_CW`). -/
def pseudoCw (n : Nat) : List Instr := [.wp n .plus]

/-- `CCW n` on a Strategy B encoder (R94 a; with `WP_POLARITY = PLUS_IS_CW`). -/
def pseudoCcw (n : Nat) : List Instr := [.wp n .minus]

/-- `HCW0 n`, a clockwise half cycle from the rest position with both pins high (R94 b; with `TT_DEFAULT`). -/
def pseudoHcw0 (n : Nat) : List Instr := [.edgeAb n 1#2, .edgeAb n 0#2]

/-- `HCW1 n`, a clockwise half cycle from the rest position with both pins low (R94 b; with `TT_DEFAULT`). -/
def pseudoHcw1 (n : Nat) : List Instr := [.edgeAb n 2#2, .edgeAb n 3#2]

/-- `HCCW0 n`, a counter-clockwise half cycle from the rest position with both pins high (R94 b; with `TT_DEFAULT`). -/
def pseudoHccw0 (n : Nat) : List Instr := [.edgeAb n 2#2, .edgeAb n 0#2]

/-- `HCCW1 n`, a counter-clockwise half cycle from the rest position with both pins low (R94 b; with `TT_DEFAULT`). -/
def pseudoHccw1 (n : Nat) : List Instr := [.edgeAb n 1#2, .edgeAb n 3#2]

/-- A list of operations as one stimulus sequence (R93: one operation after another). -/
def encodeAll : List Instr → List Item
  | [] => []
  | i :: is => encode i ++ encodeAll is

end Sys2Proof
end

