-- ==== Sys2Proof/Machine/State.lean ====
section
/-! DEFINITION. The state of the block (10_state.md): the register sets of the live encoders, the registry, the queue,
the consumer, the statistics and the output trace; with it the parameters, the stimulus sequence still to come, and what
the last operation returned. The reasons a step can stop. The state at power-on (70_reset_and_hazards.md rule R250). -/

namespace Sys2Proof.Machine

/-- An event, as it enters the queue and as it is published (R16, R86). -/
inductive Event where
  | motion (n : Nat) (p : Num)
  | button (n : Nat) (l : Level)
deriving DecidableEq, Repr

/-- The register set `I[n]` of one live encoder (R20 to R35). The flag of R34, `initialized`, is the presence of the
register set in the registry (DEDUCED, log 8). -/
structure Inst where
  num : Nat
  strategy : Strategy
  pos : Num
  min : Num
  max : Num
  step : Num
  pinA : Nat
  pinB : Nat
  pinBtn : Nat
  pullup : Bool
  st : BitVec 4
  cnt : Int
  deb : Nat
  btnLevel : Level
  btnTime : Nat
  prio : Nat
  stack : Nat
  qcap : Nat
deriving DecidableEq, Repr

/-- The shared queue `FIFO`, when it exists: its capacity and its events, the oldest first (R41, R67). -/
structure Queue where
  cap : Nat
  q : List Event
deriving DecidableEq, Repr

/-- The consumer `CONS` and its hold register (R42). -/
inductive Consumer where
  | absent
  | wait
  | hold (ev : Event)
deriving DecidableEq, Repr

/-- The result of a host command (R13, R220). No operation returns `transient`: it names the publish timeout, which is
counted (R87). -/
inductive Result where
  | ok
  | invalidArgument
  | notInitialized
  | resourceExhausted
  | transient
deriving DecidableEq, Repr

/-- What the last operation returned to its caller (DESIGN CHOICE, log 2). -/
inductive Response where
  /-- nothing: the operation has no result, or no operation has run -/
  | silent
  /-- the result of a host command -/
  | result (r : Result)
  /-- `GET`'s `(Ok, position)` (R156) -/
  | position (p : Num)
  /-- `GET_STATS`'s three values (R205) -/
  | statistics (publishFailures queueDrops : Nat) (minFreeStack : Option Nat)
deriving DecidableEq, Repr

/-- The whole state. -/
structure State where
  /-- the parameters, constant (R7, R47, R53; DESIGN CHOICE, log 4) -/
  config : Config
  /-- the register sets of the live encoders, numbers strictly rising; their numbers are the set `REG` (R20, R40) -/
  reg : List Inst
  /-- `FIFO` (R41) -/
  fifo : Option Queue
  /-- `CONS` (R42) -/
  cons : Consumer
  /-- `STAT.pub_fail` (R43) -/
  pubFail : Nat
  /-- `STAT.q_drop` (R45) -/
  qDrop : Nat
  /-- `STAT.min_free` (R44) -/
  minFree : Option Nat
  /-- `BUS`, the events published with answer `ok`, oldest first (R46) -/
  bus : List Event
  /-- the model's own: the stimulus items still to come, in the order they will be taken (DESIGN CHOICE, log 1) -/
  stim : List Item
  /-- the model's own: what the last operation returned (DESIGN CHOICE, log 2) -/
  resp : Response
deriving DecidableEq, Repr

/-- Why the machine stops with a fault. -/
inductive Fault where
  /-- Raised by `enqueue` when the queue does not exist, which R173 shows no run reaches. Safe: the run stops. -/
  | queueAbsent
deriving DecidableEq, Repr

/-- Why a step is refused. -/
inductive Refusal where
  /-- Raised by an operation whose `enabled when` does not hold: it has no transition (R14, U17; DEDUCED, log 3). `step` never answers
  it: the stimulus goes by without a step. Safe: nothing is done. -/
  | disabled
  /-- Raised by an arm of `exec` without a meaning; there is none. Safe: the run stops. -/
  | notModelled (mnemonic : String)
  /-- Raised by `step` when the decoder refuses the stimulus sequence (R91, U18). Safe: the run stops. -/
  | undecodable (why : Reject)
  /-- Raised by `EDGE_AB` on an encoder whose state nibble is above 5 (R90, U1). Safe: the run stops. -/
  | reservedNibble (st : BitVec 4)
deriving DecidableEq, Repr

/-- The power-on state under the parameters `c` (R54, R250). -/
def State.powerOn (c : Config) : State where
  config := c
  reg := []
  fifo := none
  cons := .absent
  pubFail := 0
  qDrop := 0
  minFree := none
  bus := []
  stim := []
  resp := .silent

/-- The machine right after power-on (R250, R251), on the platform's own parameters (DESIGN CHOICE, log 5). -/
def State.reset : State := State.powerOn Config.platform

end Sys2Proof.Machine
end

