-- ==== Sys2Proof/Machine/Ops.lean ====
section
/-! DEFINITION. The named operations over the state: reading and writing a register set, the registry, the result port,
a disabled operation, an error, and the micro-operation `enqueue` (45_fifo_consumer.md rule R171). -/

namespace Sys2Proof.Machine

/-- What an operation returns to its caller (DESIGN CHOICE, log 2). -/
def State.respond (s : State) (r : Response) : State := { s with resp := r }

/-- The register set `I[n]`, when `n` is live (R10, R20). -/
def State.inst? (s : State) (n : Nat) : Option Inst := s.reg.find? (fun i => i.num == n)

/-- `live(n)`: an encoder with number `n` is registered (R10, R34). -/
def State.live (s : State) (n : Nat) : Bool := (s.inst? n).isSome

/-- The set `REG` of live numbers, in rising order (R40). -/
def State.numbers (s : State) : List Nat := s.reg.map Inst.num

/-- Write a register set back in its place in the registry. -/
def putInst (i : Inst) (reg : List Inst) : List Inst := reg.map (fun j => if j.num = i.num then i else j)

/-- `I[n] <- i`, for a live `n = i.num` (R10). -/
def State.setInst (s : State) (i : Inst) : State := { s with reg := putInst i s.reg }

/-- `I[n].pos <- p` (R23). -/
def Inst.setPos (i : Inst) (p : Num) : Inst := { i with pos := p }

/-- `I[n].st <- v` (R29). -/
def Inst.setSt (i : Inst) (v : BitVec 4) : Inst := { i with st := v }

/-- `I[n].cnt <- v` (R30). -/
def Inst.setCnt (i : Inst) (v : Int) : Inst := { i with cnt := v }

/-- `I[n].btn_level <- l` (R32). -/
def Inst.setBtnLevel (i : Inst) (l : Level) : Inst := { i with btnLevel := l }

/-- `I[n].btn_time <- t` (R33). -/
def Inst.setBtnTime (i : Inst) (t : Nat) : Inst := { i with btnTime := t }

/-- `I[n].min`, `I[n].max` and `I[n].step` replaced together (R24, R25). -/
def Inst.setRange (i : Inst) (lo hi d : Num) : Inst := { i with min := lo, max := hi, step := d }

/-- Insert a register set before the first larger number. -/
def insertInst (i : Inst) : List Inst → List Inst
  | [] => [i]
  | j :: js => if i.num < j.num then i :: j :: js else j :: insertInst i js

/-- `REG <- REG + n` with the new register set (R191). -/
def State.addInst (s : State) (i : Inst) : State := { s with reg := insertInst i s.reg }

/-- The registry without the register set of `n`. -/
def dropInst (n : Nat) (reg : List Inst) : List Inst := reg.filter (fun j => j.num != n)

/-- `REG <- REG - n`: the register set ceases to exist (R200). -/
def State.removeInst (s : State) (n : Nat) : State := { s with reg := dropInst n s.reg }

/-- The queue and the consumer come into being (R191, R195). -/
def State.openShared (s : State) (cap : Nat) : State := { s with fifo := some ⟨cap, []⟩, cons := .wait }

/-- The queue and the consumer go, with whatever they hold (R180, R200, R201). -/
def State.closeShared (s : State) : State := { s with fifo := none, cons := .absent }

/-- A disabled operation: there is no transition, so no next state (R14; DEDUCED, log 3). -/
def disabled : Host.Outcome State Fault Refusal := .refused .disabled

/-- An operation that ends with a result, its writes being those already in `s` (R13: `return E`). -/
def finish (r : Result) (s : State) : Host.Outcome State Fault Refusal := .next (s.respond (.result r))

/-- An error: the result, and no state written (R13: `raise E`; R222). -/
def raise (r : Result) (s : State) : Host.Outcome State Fault Refusal := finish r s

/-- `enqueue(ev)`: append at the tail when a slot is free, else drop the new event and count it (R171, R172). The queue
is always there when this runs (R173); without one the model stops (DESIGN CHOICE, log 9). -/
def enqueue (ev : Event) (s : State) : Host.Outcome State Fault Refusal :=
  match s.fifo with
  | none => .fault .queueAbsent
  | some f =>
    if f.q.length < f.cap then .next { s with fifo := some ⟨f.cap, f.q ++ [ev]⟩ }
    else .next { s with qDrop := s.qDrop + 1 }

end Sys2Proof.Machine
end

