-- ==== Sys2Proof/Machine/Consumer.lean ====
section
/-! DEFINITION. The consumer of the event queue (45_fifo_consumer.md): `DEQ` and `PUB`. -/

namespace Sys2Proof.Machine

/-- `DEQ` (R175): the oldest event goes to the hold register. Disabled while the queue is empty or absent, while the
consumer is publishing, and while there is no consumer. -/
def execDeq (s : State) : Host.Outcome State Fault Refusal :=
  match s.cons with
  | .absent => disabled
  | .hold _ => disabled
  | .wait =>
    match s.fifo with
    | none => disabled
    | some f =>
      match f.q with
      | [] => disabled
      | ev :: rest => .next ({ s with fifo := some ⟨f.cap, rest⟩, cons := .hold ev }.respond .silent)

/-- The running minimum of the observed free stack (R44, R177, R179). -/
def lowWater (m : Option Nat) (free : Nat) : Option Nat :=
  match m with
  | none => some free
  | some k => some (min k free)

/-- `PUB pub, free` (R177): the held event is published, or lost and counted; the minimum is updated either way. Disabled
unless an event is held. -/
def execPub (answer : Answer) (free : Nat) (s : State) : Host.Outcome State Fault Refusal :=
  match s.cons with
  | .absent => disabled
  | .wait => disabled
  | .hold ev =>
    let s' := { s with minFree := lowWater s.minFree free, cons := .wait }.respond .silent
    match answer with
    | .ok => .next { s' with bus := s.bus ++ [ev] }
    | .fail => .next { s' with pubFail := s.pubFail + 1 }

end Sys2Proof.Machine
end

