-- ==== Sys2Proof/Machine/Operands.lean ====
section
/-! DEFINITION. The arithmetic of the rules (00_scope.md rule R11), the level code and the transition table of Strategy A
(30_encoding.md rules R83 to R85, 41_decoder_lut.md rules R102, R103), and the result codes (R87). -/

namespace Sys2Proof.Machine

/-- `clamp(lo, hi, v)` (R11). -/
def clamp (lo hi v : Num) : Num := if v < lo then lo else if hi < v then hi else v

/-- `mid(lo, hi)`, exact (R11). -/
def mid (lo hi : Num) : Num := (lo + hi) / 2

/-- `a -. b`, truncated subtraction of times (R11, R144). -/
def elapsed (now before : Nat) : Nat := now - before

/-- The level code `{b, a}` of the two sampled pins (R83). -/
def levelCode (b a : Level) : BitVec 2 := b ++ a

/-- The table column a level code `{b, a}` selects: itself with `CODE_ORDER = BA`; with `AB` the two bits swap, which
swaps columns 1 and 2 (R83; DEDUCED, log 6). -/
def columnOf (o : CodeOrder) (code : BitVec 2) : BitVec 2 :=
  match o with
  | .ba => code
  | .ab => code.extractLsb' 0 1 ++ code.extractLsb' 1 1

/-- The row a state nibble selects; the values 6 to 15 are reserved and select none (R29, R90). -/
def rowOf (st : BitVec 4) : Option (Fin 6) := if h : st.toNat < 6 then some ⟨st.toNat, h⟩ else none

/-- A row of the table by its index (R102). -/
def Table.row (t : Table) (r : Fin 6) : Row :=
  match r with
  | 0 => t.row0
  | 1 => t.row1
  | 2 => t.row2
  | 3 => t.row3
  | 4 => t.row4
  | 5 => t.row5

/-- An entry of a row by its column (R102). -/
def Row.entry (r : Row) (col : BitVec 2) : Entry :=
  if col = 0#2 then r.code0 else if col = 1#2 then r.code1 else if col = 2#2 then r.code2 else r.code3

/-- `TT[row][col]` (R102). -/
def Table.entry (t : Table) (row : Fin 6) (col : BitVec 2) : Entry := Row.entry (Table.row t row) col

/-- `zext_4` of a 3-bit next state into the state register (R12, R84). -/
def zext4 (next : Fin 6) : BitVec 4 := (BitVec.ofNat 3 next.val).setWidth 4

/-- `Dir` in two bits (R85). -/
def Dir.bits : Dir → BitVec 2
  | .none => 0b00#2
  | .cw => 0b01#2
  | .ccw => 0b10#2

/-- The direction of two bits; `11` is reserved (R85). -/
def Dir.ofBits (b : BitVec 2) : Option Dir :=
  if b = 0b00#2 then some .none else if b = 0b01#2 then some .cw else if b = 0b10#2 then some .ccw else none

/-- An entry packed in 8 bits: `e[3:0]` the next state, `e[5:4]` the direction, `e[7:6] = 0` (R84). -/
def Entry.packed (e : Entry) : BitVec 8 := 0b00#2 ++ Dir.bits e.dir ++ zext4 e.next

/-- The entry of a packed byte. A next state above 5 or the direction code `11` is no legal entry (R84, R91, R102; U3); that
such a byte, or one with a non-zero top, does not unpack is the model's (DESIGN CHOICE, log 15). -/
def Entry.unpack (e : BitVec 8) : Option Entry :=
  if e.extractLsb' 6 2 = 0#2 then
    match rowOf (e.extractLsb' 0 4), Dir.ofBits (e.extractLsb' 4 2) with
    | some next, some dir => some ⟨next, dir⟩
    | _, _ => none
  else none

/-- A row of four packed entries (R84). -/
def Row.unpack : List (BitVec 8) → Option Row
  | [e0, e1, e2, e3] =>
    match Entry.unpack e0, Entry.unpack e1, Entry.unpack e2, Entry.unpack e3 with
    | some a, some b, some c, some d => some ⟨a, b, c, d⟩
    | _, _, _, _ => none
  | _ => none

/-- A table of six packed rows, or none when it is not a legal value of the parameter `TT` (R102, U3). -/
def Table.unpack : List (List (BitVec 8)) → Option Table
  | [r0, r1, r2, r3, r4, r5] =>
    match Row.unpack r0, Row.unpack r1, Row.unpack r2, Row.unpack r3, Row.unpack r4, Row.unpack r5 with
    | some a, some b, some c, some d, some e, some f => some ⟨a, b, c, d, e, f⟩
    | _, _, _, _, _, _ => none
  | _ => none

/-- `TT_DEFAULT`, the published six-state half-step table, from general knowledge (R103, G1). Claims for it say so. -/
def ttDefault : Table where
  row0 := ⟨⟨3, .none⟩, ⟨2, .none⟩, ⟨1, .none⟩, ⟨0, .none⟩⟩
  row1 := ⟨⟨3, .ccw⟩, ⟨0, .none⟩, ⟨1, .none⟩, ⟨0, .none⟩⟩
  row2 := ⟨⟨3, .cw⟩, ⟨2, .none⟩, ⟨0, .none⟩, ⟨0, .none⟩⟩
  row3 := ⟨⟨3, .none⟩, ⟨5, .none⟩, ⟨4, .none⟩, ⟨0, .none⟩⟩
  row4 := ⟨⟨3, .none⟩, ⟨3, .none⟩, ⟨4, .none⟩, ⟨0, .cw⟩⟩
  row5 := ⟨⟨3, .none⟩, ⟨5, .none⟩, ⟨3, .none⟩, ⟨0, .ccw⟩⟩

/-- The numeric result codes, for printing (R87). -/
def Result.code : Result → Nat
  | .ok => 0
  | .invalidArgument => 1
  | .notInitialized => 2
  | .resourceExhausted => 3
  | .transient => 4

/-- The instance number an event carries (R86). -/
def Event.number : Event → Nat
  | .motion n _ => n
  | .button n _ => n

end Sys2Proof.Machine
end

