-- ==== Sys2Proof/Machine/Flags.lean ====
section
/-! DEFINITION. The two flags of the block (10_state.md rule R51), the interrupt sources and the enabling of operations
(00_scope.md rule R14, 60_exceptions.md rule R225), and the contexts (R232). -/

namespace Sys2Proof.Machine

/-- The flag `I[n].initialized`: the same fact as `live(n)` (R34, R51; DEDUCED, log 8). -/
def State.initialized (s : State) (n : Nat) : Bool := s.live n

/-- `dir_of`: the direction flag a watch-point gives (R124). -/
def dirOf (p : WpPolarity) (w : WatchPoint) : Dir :=
  match p, w with
  | .plusIsCw, .plus => .cw
  | .plusIsCw, .minus => .ccw
  | .plusIsCcw, .plus => .ccw
  | .plusIsCcw, .minus => .cw

/-- What a confirmed step adds to the count (R122). -/
def countStep : WatchPoint → Int
  | .plus => 1
  | .minus => -1

/-- The direction flag of a confirmed step on a count register: the watch-point at the new count fires (R122). -/
def wpDir (p : WpPolarity) (cnt : Int) (w : WatchPoint) : Dir :=
  if cnt + countStep w = 1 then dirOf p .plus else dirOf p .minus

/-- The encoder has a button (R27, R142). -/
def Inst.hasButton (c : Config) (i : Inst) : Bool := i.pinBtn != c.pinNone

/-- An interrupt source of an encoder (R225). -/
inductive Source where
  | edgeA
  | edgeB
  | watchPlus
  | watchMinus
  | edgeButton
deriving DecidableEq, Repr

/-- The source exists, and so is enabled, while the encoder is live (R101, R125, R142, R225). -/
def Inst.hasSource (c : Config) (i : Inst) (src : Source) : Bool :=
  match src with
  | .edgeA => i.strategy == .a
  | .edgeB => i.strategy == .a
  | .watchPlus => i.strategy == .b
  | .watchMinus => i.strategy == .b
  | .edgeButton => i.hasButton c

/-- The sources that invoke an interrupt-side operation: an edge on either phase pin, one watch-point, the button edge;
none for an operation of another context (R225). -/
def sourcesOf : Instr → List Source
  | .edgeAb _ _ => [.edgeA, .edgeB]
  | .wp _ .plus => [.watchPlus]
  | .wp _ .minus => [.watchMinus]
  | .edgeBtn _ _ _ => [.edgeButton]
  | .deq => []
  | .pub _ _ => []
  | .init _ _ _ _ => []
  | .deinit _ => []
  | .set _ _ => []
  | .get _ => []
  | .reset _ => []
  | .reinit _ _ _ _ => []
  | .getStats => []
  | .resetStats => []

/-- `enabled when` of each operation's rule (R14). A host command is always enabled (R72). -/
def enabled (i : Instr) (s : State) : Bool :=
  match i with
  | .edgeAb n _ =>
    match s.inst? n with
    | some r => r.strategy == .a && decide (r.st.toNat ≤ 5)
    | none => false
  | .wp n _ =>
    match s.inst? n with
    | some r => r.strategy == .b
    | none => false
  | .edgeBtn n _ _ =>
    match s.inst? n with
    | some r => r.hasButton s.config
    | none => false
  | .deq =>
    match s.cons, s.fifo with
    | .wait, some f => !f.q.isEmpty
    | _, _ => false
  | .pub _ _ =>
    match s.cons with
    | .hold _ => true
    | _ => false
  | .init _ _ _ _ => true
  | .deinit _ => true
  | .set _ _ => true
  | .get _ => true
  | .reset _ => true
  | .reinit _ _ _ _ => true
  | .getStats => true
  | .resetStats => true

/-- The execution contexts (R232). -/
inductive Context where
  | interrupt
  | consumer
  | caller
deriving DecidableEq, Repr

/-- The context of each operation (R6, R232). -/
def contextOf : Instr → Context
  | .edgeAb _ _ => .interrupt
  | .wp _ _ => .interrupt
  | .edgeBtn _ _ _ => .interrupt
  | .deq => .consumer
  | .pub _ _ => .consumer
  | .init _ _ _ _ => .caller
  | .deinit _ => .caller
  | .set _ _ => .caller
  | .get _ => .caller
  | .reset _ => .caller
  | .reinit _ _ _ _ => .caller
  | .getStats => .caller
  | .resetStats => .caller

end Sys2Proof.Machine
end

