-- ==== Sys2Proof/Machine/Position.lean ====
section
/-! DEFINITION. The position model (44_position.md): the micro-operation `pos_step` and the operations `SET`, `GET`,
`RESET`, `REINIT`. -/

namespace Sys2Proof.Machine

/-- The position a decoded step leads to (R106, R151). `NONE` never reaches `pos_step` (R152 e). -/
def stepTarget (i : Inst) (d : Dir) : Num :=
  match d with
  | .none => i.pos
  | .cw => clamp i.min i.max (i.pos + i.step)
  | .ccw => clamp i.min i.max (i.pos - i.step)

/-- `pos_step(n, dir)` on the register set `i` of a live encoder: the position is written, then an event is enqueued if
it changed; a dropped event does not undo the step (R107, R151). -/
def posStep (i : Inst) (d : Dir) (s : State) : Host.Outcome State Fault Refusal :=
  let new := stepTarget i d
  let s' := s.setInst (i.setPos new)
  if new = i.pos then .next s' else enqueue (.motion i.num new) s'

/-- `SET n, p` (R155): liveness first, then the range (R161). No event (R163). -/
def execSet (n : Nat) (p : Num) (s : State) : Host.Outcome State Fault Refusal :=
  match s.inst? n with
  | none => raise .notInitialized s
  | some i =>
    if p < i.min ∨ i.max < p then raise .invalidArgument s
    else finish .ok (s.setInst (i.setPos p))

/-- `GET n` (R156). -/
def execGet (n : Nat) (s : State) : Host.Outcome State Fault Refusal :=
  match s.inst? n with
  | none => raise .notInitialized s
  | some i => .next (s.respond (.position i.pos))

/-- `RESET n` (R158): the exact midpoint; no event (R163). -/
def execReset (n : Nat) (s : State) : Host.Outcome State Fault Refusal :=
  match s.inst? n with
  | none => raise .notInitialized s
  | some i => finish .ok (s.setInst (i.setPos (mid i.min i.max)))

/-- `REINIT n, min2, max2, step2` (R160): range and step replaced and the position recentred, together; no event (R163). -/
def execReinit (n : Nat) (min2 max2 step2 : Num) (s : State) : Host.Outcome State Fault Refusal :=
  match s.inst? n with
  | none => raise .notInitialized s
  | some i =>
    if max2 ≤ min2 ∨ step2 ≤ 0 then raise .invalidArgument s
    else finish .ok (s.setInst ((i.setRange min2 max2 step2).setPos (mid min2 max2)))

end Sys2Proof.Machine
end

