-- ==== Sys2Proof/Machine/CounterDecoder.lean ====
section
/-! DEFINITION. Strategy B, the counter and watch-point decoder (42_decoder_counter.md): `WP`. The front half of the
counting peripheral is outside the spec; one confirmed step is one `WP` (R121). -/

namespace Sys2Proof.Machine

/-- `WP n, w` (R122): the direction from the watch-point that fires, the count back to zero, then `pos_step`, all in one
transition (R123). Disabled unless `n` is live with Strategy B (R125). -/
def execWp (n : Nat) (w : WatchPoint) (s : State) : Host.Outcome State Fault Refusal :=
  match s.inst? n with
  | none => disabled
  | some i =>
    match i.strategy with
    | .a => disabled
    | .b =>
      let dir := wpDir s.config.wpPolarity i.cnt w
      let i' := i.setCnt 0
      posStep i' dir ((s.setInst i').respond .silent)

end Sys2Proof.Machine
end

