-- ==== Sys2Proof/Machine/Debounce.lean ====
section
/-! DEFINITION. The button debounce state machine (43_debounce.md): `EDGE_BTN`. -/

namespace Sys2Proof.Machine

/-- `EDGE_BTN n, lvl, now` (R136). The elapsed time is from the last edge of any kind (R137) and `>=` passes (R138); a
passing edge is accepted when its level differs (R139); the time is written on every edge. Disabled unless `n` is live
and has a button (R142). -/
def execEdgeBtn (n : Nat) (lvl : Level) (now : Nat) (s : State) : Host.Outcome State Fault Refusal :=
  match s.inst? n with
  | none => disabled
  | some i =>
    if i.hasButton s.config then
      if i.deb ≤ elapsed now i.btnTime ∧ lvl ≠ i.btnLevel then
        enqueue (.button i.num lvl) ((s.setInst ((i.setBtnLevel lvl).setBtnTime now)).respond .silent)
      else .next ((s.setInst (i.setBtnTime now)).respond .silent)
    else disabled

end Sys2Proof.Machine
end

