-- ==== Sys2Proof/Machine/LutDecoder.lean ====
section
/-! DEFINITION. Strategy A, the table-driven decoder (41_decoder_lut.md): `EDGE_AB`. -/

namespace Sys2Proof.Machine

/-- The table entry an edge on `i` reads, at the row `row` of its state nibble (R104; the column by R83). -/
def edgeEntry (c : Config) (row : Fin 6) (code : BitVec 2) : Entry := Table.entry c.tt row (columnOf c.codeOrder code)

/-- `EDGE_AB n, code` (R104). Disabled unless `n` is live with Strategy A (R125); a reserved state nibble is refused
(R90). The state register is always written; a direction flag goes to `pos_step`, none is absorbed silently (R105). -/
def execEdgeAb (n : Nat) (code : BitVec 2) (s : State) : Host.Outcome State Fault Refusal :=
  match s.inst? n with
  | none => disabled
  | some i =>
    match i.strategy with
    | .b => disabled
    | .a =>
      match rowOf i.st with
      | none => .refused (.reservedNibble i.st)
      | some row =>
        let e := edgeEntry s.config row code
        let i' := i.setSt (zext4 e.next)
        let s' := (s.setInst i').respond .silent
        if e.dir = .none then .next s' else posStep i' e.dir s'

end Sys2Proof.Machine
end

