-- ==== Sys2Proof/Machine/Registry.lean ====
section
/-! DEFINITION. The registry (46_registry_stats.md): `INIT` and `DEINIT`. -/

namespace Sys2Proof.Machine

/-- A pin id the platform has (R16, R192). -/
def pinExists (c : Config) (p : Nat) : Bool := decide (p < c.pinCount)

/-- The validation of `INIT`, every check of R191 and R192 in its order; true when one fails. -/
def initInvalid (c : Config) (reg : List Inst) (cfg : InitCfg) : Bool :=
  decide (cfg.prio < 1)
    || decide (cfg.stack < c.stackMin)
    || decide (cfg.qcap < 1)
    || !pinExists c cfg.pinA
    || !pinExists c cfg.pinB
    || decide (cfg.pinA = cfg.pinB)
    || (cfg.pinBtn != c.pinNone && !pinExists c cfg.pinBtn)
    || !decide (cfg.min < cfg.max)
    || !decide (0 < cfg.step)
    || decide (cfg.num = 0)
    || reg.any (fun i => i.num == cfg.num)
    || decide (c.maxInstances ≤ reg.length)

/-- The register set of a new encoder, every register at its creation value (R54, R191). -/
def createInst (c : Config) (cfg : InitCfg) (lvl0 : Level) (now : Nat) : Inst where
  num := cfg.num
  strategy := cfg.strategy
  pos := mid cfg.min cfg.max
  min := cfg.min
  max := cfg.max
  step := cfg.step
  pinA := cfg.pinA
  pinB := cfg.pinB
  pinBtn := cfg.pinBtn
  pullup := cfg.pullup
  st := 0#4
  cnt := 0
  deb := cfg.deb
  btnLevel := if cfg.pinBtn = c.pinNone then 0#1 else lvl0
  btnTime := now
  prio := cfg.prio
  stack := cfg.stack
  qcap := cfg.qcap

/-- The first encoder brings the queue and the consumer; a later one finds them there (R190, R195). -/
def openIfFirst (cap : Nat) (s : State) : State :=
  match s.reg with
  | [] => s.openShared cap
  | _ :: _ => s

/-- `INIT cfg, plat, lvl0, now` (R191): validation (R193), then the platform's one answer for all resources (R194), then
everything is written together. -/
def execInit (cfg : InitCfg) (plat : Answer) (lvl0 : Level) (now : Nat) (s : State) :
    Host.Outcome State Fault Refusal :=
  if initInvalid s.config s.reg cfg then raise .invalidArgument s
  else
    match plat with
    | .fail => raise .resourceExhausted s
    | .ok => finish .ok ((openIfFirst cfg.qcap s).addInst (createInst s.config cfg lvl0 now))

/-- The last encoder takes the queue and the consumer with it (R201). -/
def closeIfLast (s : State) : State :=
  match s.reg with
  | [] => s.closeShared
  | _ :: _ => s

/-- `DEINIT n` (R200): the register set goes; with the last one the queue and the consumer go, and whatever they hold
(R180, R201). It cannot fail half way (R203). -/
def execDeinit (n : Nat) (s : State) : Host.Outcome State Fault Refusal :=
  match s.inst? n with
  | none => raise .notInitialized s
  | some _ => finish .ok (closeIfLast (s.removeInst n))

end Sys2Proof.Machine
end

