-- ==== Sys2Proof/Machine/Statistics.lean ====
section
/-! DEFINITION. The statistics (46_registry_stats.md): `GET_STATS` and `RESET_STATS`. -/

namespace Sys2Proof.Machine

/-- `GET_STATS` (R205): the three values, read together; nothing written. -/
def execGetStats (s : State) : Host.Outcome State Fault Refusal :=
  .next (s.respond (.statistics s.pubFail s.qDrop s.minFree))

/-- `RESET_STATS` (R206): the three statistics and nothing else; no result. -/
def execResetStats (s : State) : Host.Outcome State Fault Refusal :=
  .next ({ s with pubFail := 0, qDrop := 0, minFree := none }.respond .silent)

end Sys2Proof.Machine
end

