-- ==== Sys2Proof/Machine/Dispatch.lean ====
section
/-! DEFINITION. One arm per operation: each calls its meaning. -/

namespace Sys2Proof.Machine

def exec (i : Instr) (s : State) : Host.Outcome State Fault Refusal :=
  match i with
  | .edgeAb n code => Sys2Proof.Machine.execEdgeAb n code s
  | .wp n w => Sys2Proof.Machine.execWp n w s
  | .edgeBtn n lvl now => Sys2Proof.Machine.execEdgeBtn n lvl now s
  | .deq => Sys2Proof.Machine.execDeq s
  | .pub answer free => Sys2Proof.Machine.execPub answer free s
  | .init cfg plat lvl0 now => Sys2Proof.Machine.execInit cfg plat lvl0 now s
  | .deinit n => Sys2Proof.Machine.execDeinit n s
  | .set n p => Sys2Proof.Machine.execSet n p s
  | .get n => Sys2Proof.Machine.execGet n s
  | .reset n => Sys2Proof.Machine.execReset n s
  | .reinit n min2 max2 step2 => Sys2Proof.Machine.execReinit n min2 max2 step2 s
  | .getStats => Sys2Proof.Machine.execGetStats s
  | .resetStats => Sys2Proof.Machine.execResetStats s

end Sys2Proof.Machine
end

