-- ==== Sys2Proof/Machine/Stream.lean ====
section
/-! DEFINITION. Taking operations off the stimulus stream (20_memory.md rule R70; DESIGN CHOICE, log 1): an operation that is
enabled makes the step; one that is disabled has no step, and the next one is looked at (00_scope.md rule R14; DEDUCED,
log 3). -/

namespace Sys2Proof.Machine

/-- The stimulus stream moves past an operation. -/
def State.advance (s : State) (rest : List Item) : State := { s with stim := rest }

/-- The outcome of an operation, and of what follows it where the operation is disabled (R14). -/
def unlessDisabled (o next : Host.Outcome State Fault Refusal) : Host.Outcome State Fault Refusal :=
  match o with
  | .next t => .next t
  | .fault r => .fault r
  | .refused r => if r = .disabled then next else .refused r

/-- The first enabled operation of the stream, run as one atomic transition (R66, R70), or the decoder's refusal (R91). The
first argument bounds how many operations are looked at: one more than the stream has items is enough. -/
def runNext : Nat → State → Host.Outcome State Fault Refusal
  | 0, _ => .refused (.undecodable .noStimulus)
  | k + 1, s =>
    match decode s.stim with
    | .ok (i, rest) => unlessDisabled (exec i (s.advance rest)) (runNext k (s.advance rest))
    | .error why => .refused (.undecodable why)

end Sys2Proof.Machine
end

