-- ==== Sys2Proof/Machine/Step.lean ====
section
/-! DEFINITION. One step of the machine: the first enabled operation of the stimulus stream, as one atomic transition
(20_memory.md rules R66, R70; DESIGN CHOICE, log 1). -/

namespace Sys2Proof.Machine

/-- One atomic transition (R66), or why there is none. -/
def step (s : State) : Host.Outcome State Fault Refusal := runNext (s.stim.length + 1) s

/-- The state with the table's word number `w`, its operand values zero, as the next stimulus (DESIGN CHOICE, log 14). -/
def State.withFetchWord (s : State) (nbits w : Nat) : State := { s with stim := tableItems nbits w ++ s.stim }

end Sys2Proof.Machine
end

