-- ==== Sys2Proof/Safety.lean ====
section
/-! DEFINITION. What the claims say of a state and of a step: the invariants of the rules (10_state.md rules R36, R55), what
a step may leave unchanged, and the events an operation offers to the queue. -/

namespace Sys2Proof.Machine

/-- The invariants of one live encoder (R36), with the range of its number (R16). -/
abbrev Inst.Valid (i : Inst) : Prop :=
  i.min < i.max ∧ 0 < i.step ∧ i.min ≤ i.pos ∧ i.pos ≤ i.max ∧ i.st.toNat ≤ 5 ∧ i.cnt = 0 ∧
    1 ≤ i.num ∧ i.num < 2 ^ numW

/-- The registry's canonical form: numbers strictly rising, so no number twice (R21, R40; DEDUCED, log 8). -/
abbrev Rising (reg : List Inst) : Prop := reg.Pairwise (fun i j => i.num < j.num)

/-- The bounds of the queue (R41, R55). -/
abbrev QueueBounded (fifo : Option Queue) : Prop :=
  match fifo with
  | none => True
  | some f => 1 ≤ f.cap ∧ f.q.length ≤ f.cap

/-- The invariants of the whole state that a single state can show (R36, R55). -/
abbrev State.Inv (s : State) : Prop :=
  Rising s.reg ∧ (∀ i ∈ s.reg, i.Valid) ∧ s.reg.length ≤ s.config.maxInstances ∧
    (s.fifo = none ↔ s.reg = []) ∧ (s.cons = .absent ↔ s.fifo = none) ∧ QueueBounded s.fifo

/-- The configuration of a live encoder passed the checks of its `INIT` (R24 to R27, R35, R192). -/
abbrev Inst.Checked (c : Config) (i : Inst) : Prop :=
  i.pinA < c.pinCount ∧ i.pinB < c.pinCount ∧ i.pinA ≠ i.pinB ∧ (i.pinBtn = c.pinNone ∨ i.pinBtn < c.pinCount) ∧
    1 ≤ i.prio ∧ c.stackMin ≤ i.stack ∧ 1 ≤ i.qcap

/-- Two states with the same statistics. -/
abbrev SameStats (s t : State) : Prop := t.pubFail = s.pubFail ∧ t.qDrop = s.qDrop ∧ t.minFree = s.minFree

/-- Two states with the same parameters and the same stimulus sequence to come. -/
abbrev SameContext (s t : State) : Prop := t.config = s.config ∧ t.stim = s.stim

/-- Every register set but that of `n` is the same (R236). -/
abbrev SameOthers (n : Nat) (s t : State) : Prop := ∀ m, m ≠ n → t.inst? m = s.inst? m

/-- The register set of `n` is `i`, every other one and the registry's numbers are as before. -/
abbrev OnlyWritten (n : Nat) (i : Inst) (s t : State) : Prop :=
  t.inst? n = some i ∧ SameOthers n s t ∧ t.numbers = s.numbers

/-- What an interrupt-side operation may not write (R233): the consumer, the trace, the consumer's statistics, the
parameters, the stimuli to come. -/
abbrev KeepsConsumerSide (s t : State) : Prop :=
  t.cons = s.cons ∧ t.pubFail = s.pubFail ∧ t.minFree = s.minFree ∧ t.bus = s.bus ∧ SameContext s t

/-- Everything but the register sets and the result port is the same. -/
abbrev KeepsShared (s t : State) : Prop :=
  t.fifo = s.fifo ∧ t.cons = s.cons ∧ SameStats s t ∧ t.bus = s.bus ∧ SameContext s t

/-- What `enqueue(ev)` makes of the queue and the drop count (R171): the event is at the tail, or it is counted. -/
abbrev Enqueued (ev : Event) (f : Queue) (s t : State) : Prop :=
  if f.q.length < f.cap then t.fifo = some ⟨f.cap, f.q ++ [ev]⟩ ∧ t.qDrop = s.qDrop
  else t.fifo = s.fifo ∧ t.qDrop = s.qDrop + 1

/-- What `pos_step` makes of the queue and the drop count (R107, R151): an event for the position `new` when it differs
from the position before, nothing otherwise. -/
abbrev MotionIfMoved (n : Nat) (old new : Num) (f : Queue) (s t : State) : Prop :=
  if new = old then t.fifo = s.fifo ∧ t.qDrop = s.qDrop else Enqueued (.motion n new) f s t

/-- The events the queue holds, oldest first; none when it does not exist. -/
def State.queued (s : State) : List Event :=
  match s.fifo with
  | none => []
  | some f => f.q

/-- The event in the hold register, as a list of at most one (R42). -/
def State.held (s : State) : List Event :=
  match s.cons with
  | .absent => []
  | .wait => []
  | .hold ev => [ev]

/-- The events on their way from the queue to the bus, the oldest first, behind those already published (R181). -/
def State.line (s : State) : List Event := s.bus ++ s.held ++ s.queued

/-- The right-hand side of the accounting of R182: every event enqueued so far is published, failed, dropped, queued or
held. -/
def State.accounted (s : State) : Nat :=
  s.bus.length + s.pubFail + s.qDrop + s.queued.length + s.held.length

/-- The direction flag a decoder operation takes from the register set `i` (R104, R122): the table entry's, or the fired
watch-point's; none for a reserved state nibble and for an operation that decodes nothing. -/
def decodedDir (c : Config) (i : Inst) : Instr → Option Dir
  | .edgeAb _ code => (rowOf i.st).map (fun row => (edgeEntry c row code).dir)
  | .wp _ w => some (wpDir c.wpPolarity i.cnt w)
  | .edgeBtn _ _ _ => none
  | .deq => none
  | .pub _ _ => none
  | .init _ _ _ _ => none
  | .deinit _ => none
  | .set _ _ => none
  | .get _ => none
  | .reset _ => none
  | .reinit _ _ _ _ => none
  | .getStats => none
  | .resetStats => none

/-- A button event of encoder `n`. -/
def Event.isButtonOf (n : Nat) : Event → Bool
  | .motion _ _ => false
  | .button m _ => m == n

/-- The event `pos_step` offers to the queue, if the position changes (R151). -/
def motionOffered (i : Inst) (d : Dir) : Option Event :=
  if stepTarget i d = i.pos then none else some (.motion i.num (stepTarget i d))

/-- The event an operation offers to the queue: the one call of `enqueue` it makes, if it makes one (R104, R122, R136). -/
def State.offered (i : Instr) (s : State) : Option Event :=
  match i with
  | .edgeAb n code =>
    match s.inst? n with
    | some r =>
      match r.strategy, rowOf r.st with
      | .a, some row => motionOffered r (edgeEntry s.config row code).dir
      | _, _ => none
    | none => none
  | .wp n w =>
    match s.inst? n with
    | some r =>
      match r.strategy with
      | .b => motionOffered r (wpDir s.config.wpPolarity r.cnt w)
      | .a => none
    | none => none
  | .edgeBtn n lvl now =>
    match s.inst? n with
    | some r =>
      if r.hasButton s.config ∧ r.deb ≤ elapsed now r.btnTime ∧ lvl ≠ r.btnLevel then some (.button r.num lvl) else none
    | none => none
  | .deq => none
  | .pub _ _ => none
  | .init _ _ _ _ => none
  | .deinit _ => none
  | .set _ _ => none
  | .get _ => none
  | .reset _ => none
  | .reinit _ _ _ _ => none
  | .getStats => none
  | .resetStats => none

/-- The checks of `INIT`, as R191 and R192 list them: one of them fails. -/
abbrev InitCheckFails (s : State) (cfg : InitCfg) : Prop :=
  cfg.prio < 1 ∨ cfg.stack < s.config.stackMin ∨ cfg.qcap < 1 ∨ s.config.pinCount ≤ cfg.pinA ∨
    s.config.pinCount ≤ cfg.pinB ∨ cfg.pinA = cfg.pinB ∨ (cfg.pinBtn ≠ s.config.pinNone ∧ s.config.pinCount ≤ cfg.pinBtn) ∨
    ¬ cfg.min < cfg.max ∨ ¬ 0 < cfg.step ∨ cfg.num = 0 ∨ cfg.num ∈ s.numbers ∨ s.config.maxInstances ≤ s.numbers.length

/-- An edge on the button pin of `i` is accepted: the time test is passed and the level differs (R136, R139). -/
abbrev Accepted (i : Inst) (lvl : Level) (now : Nat) : Prop := i.deb ≤ now - i.btnTime ∧ lvl ≠ i.btnLevel

/-- How many events an operation discards, uncounted: those of a teardown, queued and held (R180, R182, R201). -/
def discarded (i : Instr) (s t : State) : Nat :=
  match i with
  | .edgeAb _ _ => 0
  | .wp _ _ => 0
  | .edgeBtn _ _ _ => 0
  | .deq => 0
  | .pub _ _ => 0
  | .init _ _ _ _ => 0
  | .deinit _ => if t.numbers = [] then s.queued.length + s.held.length else 0
  | .set _ _ => 0
  | .get _ => 0
  | .reset _ => 0
  | .reinit _ _ _ _ => 0
  | .getStats => 0
  | .resetStats => 0

/-- A list of operations run one after another: a disabled one is no transition and goes by (R14), and the run stops where an
enabled one stops. -/
def execAll : List Instr → State → Host.Outcome State Fault Refusal
  | [], s => .next s
  | i :: is, s =>
    match exec i s with
    | .next t => execAll is t
    | .fault r => .fault r
    | .refused r => if r = .disabled then execAll is s else .refused r

/-- The events that a list of operations offers to the queue, in order, as far as it runs. -/
def offeredAlong : List Instr → State → List Event
  | [], _ => []
  | i :: is, s =>
    (s.offered i).toList ++
      match exec i s with
      | .next t => offeredAlong is t
      | .fault _ => []
      | .refused r => if r = .disabled then offeredAlong is s else []

/-- How many events the teardowns of a list of operations discard, as far as it runs (R182). -/
def discardedAlong : List Instr → State → Nat
  | [], _ => 0
  | i :: is, s =>
    match exec i s with
    | .next t => discarded i s t + discardedAlong is t
    | .fault _ => 0
    | .refused r => if r = .disabled then discardedAlong is s else 0

end Sys2Proof.Machine
end

