-- ==== Sys2Proof/Certificates/Slice0/Obligations.lean ====
section
/-! DEFINITION. The statements for the provers, from the numbered rules of spec/. In each, `resp` is the model's own result
port (log 2): "returns" in a rule is what it holds. A disabled operation has no next state: it is refused with the name
`disabled`, and a step passes it over (log 3). -/

open Sys2Proof Sys2Proof.Machine

/-! ## Encoding and the step -/

/-- R81, R82, R88: decoding an encoded operation gives it back, every operand included, and leaves what follows it. -/
def Obligations.DecodeInvertsEncode : Prop :=
  ∀ (i : Instr) (rest : List Item), i.wellFormed = true → decode (encode i ++ rest) = .ok (i, rest)

/-- R81, R88: every sequence the decoder accepts is the encoding of a well-formed operation and what follows it, so a word
has one meaning. -/
def Obligations.DecodedItemsReencode : Prop :=
  ∀ (items rest : List Item) (i : Instr),
    decode items = .ok (i, rest) → i.wellFormed = true ∧ encode i ++ rest = items

/-- R88: at most one row of the opcode map matches a word. -/
def Obligations.OpcodeRowsDisjoint : Prop :=
  ∀ (w : BitVec 32) (r r' : OpcodeRow), r ∈ opcodeRows → r' ∈ opcodeRows →
    w &&& r.mask = r.pattern → w &&& r'.mask = r'.pattern → r = r'

/-- R91: a word that matches no row is not an operation: the decoder refuses it and the step runs nothing. -/
def Obligations.UnmatchedWordRefused : Prop :=
  ∀ (s : State) (w : BitVec 32) (rest : List Item), s.stim = .word w :: rest →
    (∀ r ∈ opcodeRows, w &&& r.mask ≠ r.pattern) →
      decode s.stim = .error (.illegalWord w) ∧ step s = .refused (.undecodable (.illegalWord w))

/-- 95_test_vectors.md section 2.9: the stimulus words written out there decode as it says. -/
def Obligations.SpecWordsDecode : Prop :=
  decode [.word 0x01010002#32] = .ok (.edgeAb 1 2#2, []) ∧
    decode [.word 0x02020001#32] = .ok (.wp 2 .minus, []) ∧
    decode [.word 0x03010001#32, .natural 1200] = .ok (.edgeBtn 1 1#1 1200, []) ∧
    decode [.word 0x08000000#32] = .ok (.deq, []) ∧
    decode [.word 0x08010000#32] = .error (.illegalWord 0x08010000#32) ∧
    decode [.word 0x09000001#32, .natural 580] = .ok (.pub .fail 580, []) ∧
    decode [.word 0x10010010#32] = .error (.illegalWord 0x10010010#32) ∧
    decode [.word 0x13000000#32] = .ok (.get 0, []) ∧
    decode [.word 0x17000000#32] = .ok (.resetStats, [])

/-- R14, R66, R70, R91: a step runs the operation the decoder reads, on the state past it, and nothing else; a disabled one has
no step, and the step is that of the stimulus sequence behind it; where the decoder refuses, the step is refused. That
operations come on a stimulus sequence, and that a disabled one goes by, is the model's (log 1, log 3). -/
def Obligations.StepRunsDecodedInstruction : Prop :=
  ∀ s : State,
    (∀ (i : Instr) (rest : List Item), decode s.stim = .ok (i, rest) →
      exec i { s with stim := rest } ≠ .refused .disabled → step s = exec i { s with stim := rest }) ∧
    (∀ (i : Instr) (rest : List Item), decode s.stim = .ok (i, rest) →
      exec i { s with stim := rest } = .refused .disabled → step s = step { s with stim := rest }) ∧
    (∀ why : Reject, decode s.stim = .error why → step s = .refused (.undecodable why))

/-- R14, R66, R81: with the encoding of a well-formed operation next, a step is exactly that operation, on the state past it;
where the operation is disabled, the step is that of the state past it (log 1, log 3). -/
def Obligations.StepRunsEncodedOperation : Prop :=
  ∀ (s : State) (i : Instr) (rest : List Item), i.wellFormed = true → s.stim = encode i ++ rest →
    (exec i { s with stim := rest } ≠ .refused .disabled → step s = exec i { s with stim := rest }) ∧
    (exec i { s with stim := rest } = .refused .disabled → step s = step { s with stim := rest })

/-! ## Power-on and the invariants -/

/-- R54, R250: the registers at power-on; no register set exists. The values of the statistics are the spec's own decisions
D21 and D33; `stim` and `resp` are the model's (log 1, log 2). -/
def Obligations.PowerOnRegisters : Prop :=
  State.reset.numbers = [] ∧ (∀ n, State.reset.inst? n = none) ∧ State.reset.fifo = none ∧ State.reset.cons = .absent ∧
    State.reset.pubFail = 0 ∧ State.reset.qDrop = 0 ∧ State.reset.minFree = none ∧ State.reset.bus = [] ∧
    State.reset.stim = [] ∧ State.reset.resp = .silent

/-- R7, R36, R55: the invariants hold at power-on, whatever the parameters, and the platform's parameters are legal. -/
def Obligations.PowerOnMeetsInvariant : Prop :=
  (∀ c : Config, (State.powerOn c).Inv) ∧ State.reset.Inv ∧ State.reset.config.legal = true

/-- R36, R55: the invariants of the rules are true after every step from a state in which they hold: ranges, steps,
positions inside their range, state nibbles at most 5, counts 0, numbers in range and distinct, the bound on the registry,
the queue there exactly while an encoder is live, the consumer exactly while the queue is, the bounds of the queue. -/
def Obligations.StepKeepsInvariant : Prop :=
  ∀ s t : State, s.Inv → step s = .next t → t.Inv

/-- R26, R27, R35, R192: every live encoder keeps a configuration that passed the checks of its `INIT`. -/
def Obligations.StepKeepsCheckedConfig : Prop :=
  ∀ s t : State, (∀ i ∈ s.reg, i.Checked s.config) → step s = .next t → ∀ i ∈ t.reg, i.Checked t.config

/-- R14, R66, R72, R173: from a state in which the invariants hold, every operation that is enabled completes in one
transition, and none is stopped by a fault; a host command is always enabled. -/
def Obligations.EveryOperationCompletes : Prop :=
  ∀ (s : State) (i : Instr), s.Inv →
    (enabled i s = true → ∃ t, exec i s = .next t) ∧ (∀ r, exec i s ≠ .fault r) ∧
      (contextOf i = .caller → enabled i s = true)

/-- R14: only an enabled operation makes a transition, from any state; one that is not enabled has none: the model refuses it
with the name `disabled` (log 3), or, for a reserved state nibble, with the name R90 asks for. -/
def Obligations.OnlyEnabledOperationsTransition : Prop :=
  ∀ (s : State) (i : Instr),
    (∀ t, exec i s = .next t → enabled i s = true) ∧
    (enabled i s = false → exec i s = .refused .disabled ∨
      ∃ n code r, i = .edgeAb n code ∧ s.inst? n = some r ∧ 5 < r.st.toNat ∧ exec i s = .refused (.reservedNibble r.st))

/-- R101, R125, R142, R225: an interrupt-side operation is enabled exactly when its encoder is live and every source that
invokes it exists. -/
def Obligations.InterruptOperationsHaveSources : Prop :=
  ∀ (s : State) (i : Instr) (n : Nat), s.Inv → contextOf i = .interrupt → i.number = some n →
    (enabled i s = true ↔ ∃ r, s.inst? n = some r ∧ ∀ src ∈ sourcesOf i, r.hasSource s.config src = true)

/-- R14 and the `enabled when` lines of R104, R122, R136, R175, R177: a disabled operation has no transition: it is refused with
the name `disabled` (log 3), and a step passes it over. -/
def Obligations.DisabledOperationsPassedOver : Prop :=
  ∀ s : State,
    (∀ n code, (∀ i, s.inst? n = some i → i.strategy = .b) → exec (.edgeAb n code) s = .refused .disabled) ∧
    (∀ n w, (∀ i, s.inst? n = some i → i.strategy = .a) → exec (.wp n w) s = .refused .disabled) ∧
    (∀ n lvl now, (∀ i, s.inst? n = some i → i.pinBtn = s.config.pinNone) →
      exec (.edgeBtn n lvl now) s = .refused .disabled) ∧
    (¬ (s.cons = .wait ∧ s.queued ≠ []) → exec .deq s = .refused .disabled) ∧
    (∀ answer free, (∀ ev, s.cons ≠ .hold ev) → exec (.pub answer free) s = .refused .disabled) ∧
    (∀ i rest, i.wellFormed = true → exec i s = .refused .disabled →
      step { s with stim := encode i ++ rest } = step { s with stim := rest })

/-! ## Strategy A -/

/-- R83, R104, R107: `EDGE_AB` on a live Strategy A encoder, at the row `row` of its state nibble, with pin levels `b` and
`a`: the entry at column `{b, a}` (at `{a, b}` under `CODE_ORDER = AB`, log 6) gives the next state, which is always
written, and the direction that `pos_step` takes; an event is made only if the position changed; nothing else changes. -/
def Obligations.EdgeAbFollowsTable : Prop :=
  ∀ (s : State) (n : Nat) (b a : Level) (i : Inst) (row : Fin 6) (f : Queue) (e : Entry),
    s.inst? n = some i → i.strategy = .a → i.st.toNat = row.val → s.fifo = some f →
    e = (match s.config.codeOrder with
      | .ba => Table.entry s.config.tt row (b ++ a)
      | .ab => Table.entry s.config.tt row (a ++ b)) →
    ∃ t, exec (.edgeAb n (b ++ a)) s = .next t ∧
      OnlyWritten n { i with st := BitVec.ofNat 4 e.next.val, pos := stepTarget i e.dir } s t ∧
      MotionIfMoved n i.pos (stepTarget i e.dir) f s t ∧ t.resp = .silent ∧ KeepsConsumerSide s t

/-- R105: an entry without a direction changes the state register and nothing else: no event, no statistic, no position. It
needs no queue. Which entry is read under `CODE_ORDER = AB` is the model's (DEDUCED, log 6). -/
def Obligations.EdgeAbNoDirectionAbsorbed : Prop :=
  ∀ (s : State) (n : Nat) (code : BitVec 2) (i : Inst) (row : Fin 6) (next : Fin 6),
    s.inst? n = some i → i.strategy = .a → i.st.toNat = row.val →
    Table.entry s.config.tt row (columnOf s.config.codeOrder code) = ⟨next, .none⟩ →
    ∃ t, exec (.edgeAb n code) s = .next t ∧ OnlyWritten n { i with st := BitVec.ofNat 4 next.val } s t ∧
      t.resp = .silent ∧ KeepsShared s t

/-- R90: `EDGE_AB` on a live Strategy A encoder whose state nibble is above 5 is refused, whatever the code. -/
def Obligations.EdgeAbReservedNibbleRefused : Prop :=
  ∀ (s : State) (n : Nat) (code : BitVec 2) (i : Inst),
    s.inst? n = some i → i.strategy = .a → 5 < i.st.toNat → exec (.edgeAb n code) s = .refused (.reservedNibble i.st)

/-- R84, R103, R102, R91: the packed default table unpacks to `TT_DEFAULT`; a byte with a next state above 5 or the direction
code `11` is no legal entry. That such a byte does not unpack, and that one with a non-zero top does not either, is the model's
(DESIGN CHOICE, log 15). For `TT_DEFAULT`, from general knowledge (G1). -/
def Obligations.DefaultTableUnpacks : Prop :=
  Table.unpack
      [[0x03#8, 0x02#8, 0x01#8, 0x00#8], [0x23#8, 0x00#8, 0x01#8, 0x00#8], [0x13#8, 0x02#8, 0x00#8, 0x00#8],
       [0x03#8, 0x05#8, 0x04#8, 0x00#8], [0x03#8, 0x03#8, 0x04#8, 0x10#8], [0x03#8, 0x05#8, 0x03#8, 0x20#8]] =
      some ttDefault ∧
    (∀ e : Entry, Entry.unpack (Entry.packed e) = some e) ∧
    (∀ p : BitVec 8, 5 < (p.extractLsb' 0 4).toNat ∨ p.extractLsb' 4 2 = 3#2 ∨ p.extractLsb' 6 2 ≠ 0#2 →
      Entry.unpack p = none)

/-- R94 b, R108: with `TT_DEFAULT` and `CODE_ORDER = BA`, the two half cycles of a full quadrature cycle from rest with both
pins high move the position by two steps, clockwise or counter-clockwise, with an event for each, and end at rest again. For
`TT_DEFAULT`, from general knowledge (G1). -/
def Obligations.DefaultTableFullCycle : Prop :=
  ∀ (s : State) (n : Nat) (i : Inst) (f : Queue),
    s.inst? n = some i → i.strategy = .a → i.st = 0#4 → s.config.tt = ttDefault → s.config.codeOrder = .ba →
    s.fifo = some f → f.q.length + 2 ≤ f.cap → 0 < i.step → i.min ≤ i.pos → i.pos ≤ i.max →
    (i.pos + i.step + i.step ≤ i.max →
      ∃ t, execAll (pseudoHcw0 n ++ pseudoHcw1 n) s = .next t ∧
        OnlyWritten n { i with pos := i.pos + i.step + i.step } s t ∧
        t.fifo = some ⟨f.cap, f.q ++ [.motion n (i.pos + i.step), .motion n (i.pos + i.step + i.step)]⟩ ∧
        t.qDrop = s.qDrop ∧ KeepsConsumerSide s t) ∧
    (i.min ≤ i.pos - i.step - i.step →
      ∃ t, execAll (pseudoHccw0 n ++ pseudoHccw1 n) s = .next t ∧
        OnlyWritten n { i with pos := i.pos - i.step - i.step } s t ∧
        t.fifo = some ⟨f.cap, f.q ++ [.motion n (i.pos - i.step), .motion n (i.pos - i.step - i.step)]⟩ ∧
        t.qDrop = s.qDrop ∧ KeepsConsumerSide s t)

/-- R109 a: with `TT_DEFAULT`, a pin that bounces and returns from rest with both pins high leaves everything as it was. For
`TT_DEFAULT`, from general knowledge (G1). -/
def Obligations.DefaultTableAbsorbsBounce : Prop :=
  ∀ (s : State) (n : Nat) (i : Inst),
    s.inst? n = some i → i.strategy = .a → i.st = 0#4 → s.config.tt = ttDefault → s.config.codeOrder = .ba →
    (∃ t, execAll [.edgeAb n 2#2, .edgeAb n 3#2, .edgeAb n 2#2, .edgeAb n 3#2] s = .next t ∧ OnlyWritten n i s t ∧
      KeepsShared s t) ∧
    (∃ t, execAll [.edgeAb n 1#2, .edgeAb n 3#2, .edgeAb n 1#2, .edgeAb n 3#2] s = .next t ∧ OnlyWritten n i s t ∧
      KeepsShared s t)

/-! ## Strategy B -/

/-- R122, R124: `WP` on a live Strategy B encoder whose count is at the zero point: the watch-point that fires gives the
direction by `WP_POLARITY`, the count ends at 0, the position takes the decoded step, an event is made only if it changed;
nothing else changes. -/
def Obligations.WpStepsPosition : Prop :=
  ∀ (s : State) (n : Nat) (w : WatchPoint) (i : Inst) (f : Queue) (d : Dir),
    s.inst? n = some i → i.strategy = .b → i.cnt = 0 → s.fifo = some f →
    d = (match s.config.wpPolarity, w with
      | .plusIsCw, .plus => .cw
      | .plusIsCw, .minus => .ccw
      | .plusIsCcw, .plus => .ccw
      | .plusIsCcw, .minus => .cw) →
    ∃ t, exec (.wp n w) s = .next t ∧ OnlyWritten n { i with pos := stepTarget i d } s t ∧
      MotionIfMoved n i.pos (stepTarget i d) f s t ∧ t.resp = .silent ∧ KeepsConsumerSide s t

/-- R122 corner cases: two `WP` of opposite direction in a row return the position to where it was when neither is clamped,
and enqueue two events. -/
def Obligations.WpOppositeStepsReturn : Prop :=
  ∀ (s : State) (n : Nat) (i : Inst) (f : Queue),
    s.inst? n = some i → i.strategy = .b → i.Valid → s.config.wpPolarity = .plusIsCw → s.fifo = some f →
    f.q.length + 2 ≤ f.cap →
    (i.pos + i.step ≤ i.max →
      ∃ t, execAll [.wp n .plus, .wp n .minus] s = .next t ∧ OnlyWritten n i s t ∧
        t.fifo = some ⟨f.cap, f.q ++ [.motion n (i.pos + i.step), .motion n i.pos]⟩ ∧ t.qDrop = s.qDrop ∧
        KeepsConsumerSide s t) ∧
    (i.min ≤ i.pos - i.step →
      ∃ t, execAll [.wp n .minus, .wp n .plus] s = .next t ∧ OnlyWritten n i s t ∧
        t.fifo = some ⟨f.cap, f.q ++ [.motion n (i.pos - i.step), .motion n i.pos]⟩ ∧ t.qDrop = s.qDrop ∧
        KeepsConsumerSide s t)

/-! ## The position model -/

/-- R106, R151: for a valid encoder a clockwise step leads to the lesser of position plus step and the upper bound, a
counter-clockwise step to the greater of position minus step and the lower bound. -/
def Obligations.DecodedStepArithmetic : Prop :=
  ∀ i : Inst, i.Valid →
    stepTarget i .cw = min (i.pos + i.step) i.max ∧ stepTarget i .ccw = max (i.pos - i.step) i.min

/-- R153: over every sequence of decoded transitions of one encoder the position never leaves its range; one more transition
moves it by exactly one step in its direction, or, where that would cross the bound, to the bound; without a direction it
stays. -/
def Obligations.DecodedPositionsStayInRange : Prop :=
  ∀ (s t u : State) (n : Nat) (i : Inst) (ops : List Instr) (op : Instr),
    s.inst? n = some i → i.Valid →
    (∀ o ∈ op :: ops, (∃ code, o = .edgeAb n code) ∨ ∃ w, o = .wp n w) →
    execAll ops s = .next t → exec op t = .next u →
    ∃ j k d, t.inst? n = some j ∧ u.inst? n = some k ∧ decodedDir t.config j op = some d ∧
      j.min = i.min ∧ j.max = i.max ∧ j.step = i.step ∧ k.min = i.min ∧ k.max = i.max ∧ k.step = i.step ∧
      i.min ≤ j.pos ∧ j.pos ≤ i.max ∧ i.min ≤ k.pos ∧ k.pos ≤ i.max ∧
      (d = .cw → k.pos = if j.pos + i.step ≤ i.max then j.pos + i.step else i.max) ∧
      (d = .ccw → k.pos = if i.min ≤ j.pos - i.step then j.pos - i.step else i.min) ∧
      (d = .none → k.pos = j.pos)

/-- R152 a: a decoded step outward from a bound changes no position, makes no event and moves no statistic; it needs no free
slot. With `WP_POLARITY = PLUS_IS_CW`. -/
def Obligations.OutwardStepOnBoundSilent : Prop :=
  ∀ (s : State) (n : Nat) (i : Inst),
    s.inst? n = some i → i.strategy = .b → i.Valid → s.config.wpPolarity = .plusIsCw →
    (i.pos = i.max → ∃ t, exec (.wp n .plus) s = .next t ∧ OnlyWritten n i s t ∧ t.resp = .silent ∧ KeepsShared s t) ∧
    (i.pos = i.min → ∃ t, exec (.wp n .minus) s = .next t ∧ OnlyWritten n i s t ∧ t.resp = .silent ∧ KeepsShared s t)

/-- R155: `SET` takes exactly the positions inside the range of a live encoder; otherwise an error and nothing written. Its
word has opcode `0x12` and one operand value. -/
def Obligations.SetTakesExactlyTheRange : Prop :=
  ∀ (s : State) (n : Nat) (p : Sys2Proof.Num),
    ((Instr.set n p).opcode.code = 0x12#8 ∧ (Instr.set n p).operands = [.num p]) ∧
    (s.inst? n = none → exec (.set n p) s = .next { s with resp := .result .notInitialized }) ∧
    (∀ i, s.inst? n = some i → p < i.min ∨ i.max < p →
      exec (.set n p) s = .next { s with resp := .result .invalidArgument }) ∧
    (∀ i, s.inst? n = some i → i.min ≤ p → p ≤ i.max →
      ∃ t, exec (.set n p) s = .next t ∧ t.resp = .result .ok ∧ OnlyWritten n { i with pos := p } s t ∧ KeepsShared s t)

/-- R156: `GET` returns the position of a live encoder, and `NotInitialized` and no number for another; it writes nothing
(the spec's decision D17). -/
def Obligations.GetReturnsPosition : Prop :=
  ∀ (s : State) (n : Nat),
    (∀ i, s.inst? n = some i → exec (.get n) s = .next { s with resp := .position i.pos }) ∧
    (s.inst? n = none → exec (.get n) s = .next { s with resp := .result .notInitialized })

/-- R158: `RESET` sets the position of a live encoder to the exact midpoint of its range, strictly inside it, and writes
nothing else. Its word has opcode `0x14` and no operand value. -/
def Obligations.ResetRecentresPosition : Prop :=
  ∀ (s : State) (n : Nat),
    ((Instr.reset n).opcode.code = 0x14#8 ∧ (Instr.reset n).operands = []) ∧
    (s.inst? n = none → exec (.reset n) s = .next { s with resp := .result .notInitialized }) ∧
    (∀ i, s.inst? n = some i →
      (i.min < i.max → i.min < (i.min + i.max) / 2 ∧ (i.min + i.max) / 2 < i.max) ∧
      ∃ t, exec (.reset n) s = .next t ∧ t.resp = .result .ok ∧
        OnlyWritten n { i with pos := (i.min + i.max) / 2 } s t ∧ KeepsShared s t)

/-- R160: `REINIT` with `max2 <= min2` or `step2 <= 0` is an error that writes nothing; else it replaces range and step and
recentres the position, together, and writes nothing else. Its word has opcode `0x15` and three operand values. -/
def Obligations.ReinitReplacesRange : Prop :=
  ∀ (s : State) (n : Nat) (min2 max2 step2 : Sys2Proof.Num),
    ((Instr.reinit n min2 max2 step2).opcode.code = 0x15#8 ∧
      (Instr.reinit n min2 max2 step2).operands = [.num min2, .num max2, .num step2]) ∧
    (s.inst? n = none →
      exec (.reinit n min2 max2 step2) s = .next { s with resp := .result .notInitialized }) ∧
    (∀ i, s.inst? n = some i → max2 ≤ min2 ∨ step2 ≤ 0 →
      exec (.reinit n min2 max2 step2) s = .next { s with resp := .result .invalidArgument }) ∧
    (∀ i, s.inst? n = some i → min2 < max2 → 0 < step2 →
      ∃ t, exec (.reinit n min2 max2 step2) s = .next t ∧ t.resp = .result .ok ∧
        OnlyWritten n { i with min := min2, max := max2, step := step2, pos := (min2 + max2) / 2 } s t ∧
        KeepsShared s t)

/-- 95 S4, R155, R156: after a `SET` that returns `Ok`, `GET` returns exactly the position set. -/
def Obligations.SetThenGetReturnsIt : Prop :=
  ∀ (s t : State) (n : Nat) (p : Sys2Proof.Num), exec (.set n p) s = .next t → t.resp = .result .ok →
    exec (.get n) t = .next { t with resp := .position p }

/-- R112: no position command of the host writes a decoder or button register of any encoder (the spec's decision D30). -/
def Obligations.AccessorsLeaveDecoderAlone : Prop :=
  ∀ (s t : State) (i : Instr) (n m : Nat) (p min2 max2 step2 : Sys2Proof.Num),
    i = .set n p ∨ i = .get n ∨ i = .reset n ∨ i = .reinit n min2 max2 step2 → exec i s = .next t →
    (t.inst? m).map (fun r => (r.st, r.cnt, r.btnLevel, r.btnTime, r.deb)) =
      (s.inst? m).map (fun r => (r.st, r.cnt, r.btnLevel, r.btnTime, r.deb))

/-! ## The button -/

/-- R136 to R140: `EDGE_BTN` on a live encoder with a button: accepted when the time since the last edge of any kind is at
least the threshold and the level differs; then the level is stored and a button event is offered to the queue; the time is
stored on every edge; nothing else changes. -/
def Obligations.EdgeBtnDebounces : Prop :=
  ∀ (s : State) (n : Nat) (lvl : Level) (now : Nat) (i : Inst) (f : Queue),
    s.inst? n = some i → i.pinBtn ≠ s.config.pinNone → s.fifo = some f →
    ∃ t, exec (.edgeBtn n lvl now) s = .next t ∧
      OnlyWritten n { i with btnLevel := if Accepted i lvl now then lvl else i.btnLevel, btnTime := now } s t ∧
      (if Accepted i lvl now then Enqueued (.button n lvl) f s t else t.fifo = s.fifo ∧ t.qDrop = s.qDrop) ∧
      t.resp = .silent ∧ KeepsConsumerSide s t

/-- R143: of two button edges closer together than the threshold the second is rejected, whatever the levels: it makes no
event. The timestamps do not go backwards (R15). -/
def Obligations.CloserEdgesRejected : Prop :=
  ∀ (s t : State) (n : Nat) (l1 l2 : Level) (now1 now2 : Nat) (i : Inst),
    s.inst? n = some i → i.pinBtn ≠ s.config.pinNone → exec (.edgeBtn n l1 now1) s = .next t →
    now1 ≤ now2 → now2 - now1 < i.deb →
    ∃ u j, t.inst? n = some j ∧ exec (.edgeBtn n l2 now2) t = .next u ∧ OnlyWritten n { j with btnTime := now2 } t u ∧
      KeepsShared t u

/-- R139: whatever the draws, the button events an encoder makes alternate in level: over every run of operations of every
kind, but for a `DEINIT` of that encoder. -/
def Obligations.AcceptedLevelsAlternate : Prop :=
  ∀ (s : State) (n : Nat) (ops : List Instr), (∀ o ∈ ops, o ≠ .deinit n) →
    ((offeredAlong ops s).filter (Event.isButtonOf n)).IsChain (fun e e' => e ≠ e')

/-! ## The queue and the consumer -/

/-- R171: `enqueue` on the queue appends at the tail while there is a free slot, and otherwise counts the event as dropped;
it writes nothing else, so its caller's writes stand. -/
def Obligations.EnqueueAppendsOrDrops : Prop :=
  ∀ (s : State) (ev : Event) (f : Queue), s.fifo = some f →
    (f.q.length < f.cap → enqueue ev s = .next { s with fifo := some ⟨f.cap, f.q ++ [ev]⟩ }) ∧
    (¬ f.q.length < f.cap → enqueue ev s = .next { s with qDrop := s.qDrop + 1 })

/-- R175: `DEQ`, with the consumer waiting and the queue not empty, moves the oldest event to the hold register. -/
def Obligations.DeqTakesOldest : Prop :=
  ∀ (s : State) (cap : Nat) (ev : Event) (rest : List Event), s.cons = .wait → s.fifo = some ⟨cap, ev :: rest⟩ →
    exec .deq s = .next { s with fifo := some ⟨cap, rest⟩, cons := .hold ev, resp := .silent }

/-- R177: `PUB` with an event held: on `ok` the event joins the trace, on `fail` it is lost and counted; either way the
free-stack minimum is updated and the consumer waits again. -/
def Obligations.PubPublishesOrCounts : Prop :=
  ∀ (s : State) (ev : Event) (answer : Answer) (free : Nat), s.cons = .hold ev →
    exec (.pub answer free) s = .next { s with
      bus := if answer = .ok then s.bus ++ [ev] else s.bus
      pubFail := if answer = .ok then s.pubFail else s.pubFail + 1
      minFree := some (match s.minFree with | none => free | some m => min m free)
      cons := .wait
      resp := .silent }

/-- R67: nothing reorders the queue: an operation leaves it as it is (not `DEQ`, and not one that offers an event while there
is a free slot), appends the event it offers at the tail while there is a free slot, takes the head (`DEQ`), creates it empty
where there was none (`INIT`), or destroys it (the last `DEINIT`); its capacity is fixed from creation to teardown and a full
queue keeps what it holds. -/
def Obligations.QueueIsFirstInFirstOut : Prop :=
  ∀ (s t : State) (i : Instr), s.Inv → exec i s = .next t →
    (t.fifo = s.fifo ∧ i ≠ .deq ∧ ∀ ev, s.offered i = some ev → ∃ f, s.fifo = some f ∧ ¬ f.q.length < f.cap) ∨
    (∃ f ev, s.offered i = some ev ∧ contextOf i = .interrupt ∧ s.fifo = some f ∧ f.q.length < f.cap ∧
      t.fifo = some ⟨f.cap, f.q ++ [ev]⟩) ∨
    (∃ f ev rest, i = .deq ∧ s.fifo = some f ∧ f.q = ev :: rest ∧ t.fifo = some ⟨f.cap, rest⟩ ∧ t.cons = .hold ev) ∨
    (∃ cfg plat lvl0 now, i = .init cfg plat lvl0 now ∧ s.fifo = none ∧ t.fifo = some ⟨cfg.qcap, []⟩) ∨
    (∃ n, i = .deinit n ∧ t.numbers = [] ∧ t.fifo = none)

/-- R175, R177, R181: the consumer strictly alternates: a `DEQ` takes it from waiting to holding, a `PUB` from holding to
waiting, always; only `INIT` and `DEINIT` bring it into being and end it, and no other operation changes it. -/
def Obligations.ConsumerAlternates : Prop :=
  ∀ (s t : State) (i : Instr), s.Inv → exec i s = .next t →
    (t.cons = s.cons ∧ contextOf i ≠ .consumer) ∨ (i = .deq ∧ s.cons = .wait ∧ ∃ ev, t.cons = .hold ev) ∨
    (∃ answer free ev, i = .pub answer free ∧ s.cons = .hold ev ∧ t.cons = .wait) ∨
    (∃ cfg plat lvl0 now, i = .init cfg plat lvl0 now ∧ s.cons = .absent ∧ t.cons = .wait) ∨
    (∃ n, i = .deinit n ∧ t.numbers = [] ∧ t.cons = .absent)

/-- R181: published, held and queued events stand in one line in the order they entered; an operation leaves the line, adds
at its end the event it makes, loses the held one (a failed publish), or ends it (teardown). -/
def Obligations.EventsKeepTheirOrder : Prop :=
  ∀ (s t : State) (i : Instr), s.Inv → exec i s = .next t →
    t.line = s.line ∨ (∃ ev, s.offered i = some ev ∧ t.line = s.line ++ [ev]) ∨
    (∃ free ev, i = .pub .fail free ∧ s.cons = .hold ev ∧ t.line = s.bus ++ s.queued) ∨
    (∃ n, i = .deinit n ∧ t.numbers = [] ∧ t.line = s.bus)

/-- R182: from power-on, over every run without `RESET_STATS`, the events offered to the queue are those published, failed,
dropped, queued or held, and those that the teardowns of the run discarded. -/
def Obligations.EventAccounting : Prop :=
  ∀ (c : Config) (ops : List Instr) (t : State), execAll ops (State.powerOn c) = .next t → (∀ o ∈ ops, o ≠ .resetStats) →
    (offeredAlong ops (State.powerOn c)).length = t.accounted + discardedAlong ops (State.powerOn c)

/-- R182, for one operation: from any state in which the invariants hold, the operation accounts for the event it offers, if
it offers one, and a teardown for what it discards. -/
def Obligations.StepAccountsForEvents : Prop :=
  ∀ (s t : State) (i : Instr), s.Inv → exec i s = .next t → i ≠ .resetStats →
    t.accounted + discarded i s t = s.accounted + (s.offered i).toList.length

/-! ## The registry -/

/-- R191: `INIT`. A failed check is `InvalidArgument` whatever the platform's answer, and nothing is written; with every check
passed, a refused resource is `ResourceExhausted` and nothing is written; else the register set is created, its number
registered, for the first encoder the queue and the consumer come into being, and the new encoder's stimuli become enabled.
Its word has opcode `0x10` and the number of the configuration. -/
def Obligations.InitFollowsItsRule : Prop :=
  ∀ (s : State) (cfg : InitCfg) (plat : Answer) (lvl0 : Level) (now : Nat),
    ((Instr.init cfg plat lvl0 now).opcode.code = 0x10#8 ∧ (Instr.init cfg plat lvl0 now).number = some cfg.num) ∧
    (InitCheckFails s cfg → exec (.init cfg plat lvl0 now) s = .next { s with resp := .result .invalidArgument }) ∧
    (¬ InitCheckFails s cfg →
      exec (.init cfg .fail lvl0 now) s = .next { s with resp := .result .resourceExhausted }) ∧
    (¬ InitCheckFails s cfg →
      ∃ t, exec (.init cfg .ok lvl0 now) s = .next t ∧ t.resp = .result .ok ∧
        t.inst? cfg.num = some
          { num := cfg.num, strategy := cfg.strategy, pos := (cfg.min + cfg.max) / 2, min := cfg.min, max := cfg.max,
            step := cfg.step, pinA := cfg.pinA, pinB := cfg.pinB, pinBtn := cfg.pinBtn, pullup := cfg.pullup, st := 0#4,
            cnt := 0, deb := cfg.deb, btnLevel := if cfg.pinBtn = s.config.pinNone then 0#1 else lvl0, btnTime := now,
            prio := cfg.prio, stack := cfg.stack, qcap := cfg.qcap } ∧
        SameOthers cfg.num s t ∧ (∀ m, m ∈ t.numbers ↔ m = cfg.num ∨ m ∈ s.numbers) ∧
        (s.numbers = [] → t.fifo = some ⟨cfg.qcap, []⟩ ∧ t.cons = .wait) ∧
        (s.numbers ≠ [] → t.fifo = s.fifo ∧ t.cons = s.cons) ∧
        SameStats s t ∧ t.bus = s.bus ∧ SameContext s t ∧
        (∀ code, enabled (.edgeAb cfg.num code) t = true ↔ cfg.strategy = .a) ∧
        (∀ w, enabled (.wp cfg.num w) t = true ↔ cfg.strategy = .b) ∧
        (∀ lvl tick, enabled (.edgeBtn cfg.num lvl tick) t = true ↔ cfg.pinBtn ≠ s.config.pinNone))

/-- 95 S2, R23: `GET` right after an `INIT` that returns `Ok` returns exactly the midpoint of the range. -/
def Obligations.InitThenGetIsMidpoint : Prop :=
  ∀ (s t : State) (cfg : InitCfg) (plat : Answer) (lvl0 : Level) (now : Nat),
    exec (.init cfg plat lvl0 now) s = .next t → t.resp = .result .ok →
    exec (.get cfg.num) t = .next { t with resp := .position ((cfg.min + cfg.max) / 2) }

/-- R196: a second `INIT` with the number of a live encoder fails with `InvalidArgument` and changes nothing; after `DEINIT`
the number is free again. -/
def Obligations.DuplicateInitRejected : Prop :=
  ∀ (s : State) (cfg : InitCfg) (plat : Answer) (lvl0 : Level) (now : Nat), s.live cfg.num = true →
    exec (.init cfg plat lvl0 now) s = .next { s with resp := .result .invalidArgument } ∧
    ∃ t, exec (.deinit cfg.num) s = .next t ∧ t.live cfg.num = false ∧ cfg.num ∉ t.numbers

/-- R200, R201: `DEINIT` of a live encoder removes its register set and its number, and with the last one the queue and the
consumer with whatever they hold; statistics and trace are untouched; then the number's stimuli are disabled and the host
commands on it return `NotInitialized`. Of a number that is not live it is `NotInitialized` and writes nothing. Its word has
opcode `0x11` and no operand value. -/
def Obligations.DeinitRemovesEncoder : Prop :=
  ∀ (s : State) (n : Nat),
    ((Instr.deinit n).opcode.code = 0x11#8 ∧ (Instr.deinit n).operands = []) ∧
    (s.inst? n = none → exec (.deinit n) s = .next { s with resp := .result .notInitialized }) ∧
    (∀ i, s.inst? n = some i →
      ∃ t, exec (.deinit n) s = .next t ∧ t.resp = .result .ok ∧ t.inst? n = none ∧ SameOthers n s t ∧
        t.numbers = s.numbers.filter (fun m => m != n) ∧
        (t.numbers = [] → t.fifo = none ∧ t.cons = .absent) ∧ (t.numbers ≠ [] → t.fifo = s.fifo ∧ t.cons = s.cons) ∧
        SameStats s t ∧ t.bus = s.bus ∧ SameContext s t ∧
        (∀ o, contextOf o = .interrupt → o.number = some n → enabled o t = false) ∧
        ∀ o, contextOf o = .caller → o.number = some n → (∀ cfg plat lvl0 now, o ≠ .init cfg plat lvl0 now) →
          exec o t = .next { t with resp := .result .notInitialized })

/-! ## The statistics -/

/-- R205: `GET_STATS` returns the three statistics together and writes nothing, at power-on and with no encoder live too. Its
word has opcode `0x16` and no operand value. -/
def Obligations.GetStatsReadsAll : Prop :=
  ∀ s : State,
    (Instr.getStats.opcode.code = 0x16#8 ∧ Instr.getStats.operands = []) ∧
    exec .getStats s = .next { s with resp := .statistics s.pubFail s.qDrop s.minFree }

/-- R206: `RESET_STATS` clears the three statistics and writes nothing else (the minimum by the spec's decision D28). -/
def Obligations.ResetStatsClearsAll : Prop :=
  ∀ s : State, exec .resetStats s = .next { s with pubFail := 0, qDrop := 0, minFree := none, resp := .silent }

/-- R43, R45, R55, R206: `RESET_STATS` is the only operation that lowers a counter. R44, R179 (the spec's decision D21): until
then a free-stack minimum once observed stays observed and never rises; a `PUB` may lower it. -/
def Obligations.CountersFallOnlyByResetMinimumNeverRises : Prop :=
  ∀ (s t : State) (i : Instr), i ≠ .resetStats → exec i s = .next t →
    s.pubFail ≤ t.pubFail ∧ s.qDrop ≤ t.qDrop ∧ ∀ m, s.minFree = some m → ∃ k, t.minFree = some k ∧ k ≤ m

/-! ## The whole machine -/

/-- R222: an operation that returns an error has written no state: only the result is there. -/
def Obligations.ErrorsWriteNothing : Prop :=
  ∀ (s t : State) (i : Instr) (r : Result), exec i s = .next t → t.resp = .result r → r ≠ .ok →
    t = { s with resp := .result r }

/-- R221: which operation can return which error, and when; no other combination occurs. -/
def Obligations.ErrorsMatchTheTable : Prop :=
  ∀ (s t : State) (i : Instr) (r : Result), exec i s = .next t → t.resp = .result r →
    contextOf i = .caller ∧ r ≠ .transient ∧
    (r = .resourceExhausted → ∃ cfg lvl0 now, i = .init cfg .fail lvl0 now ∧ ¬ InitCheckFails s cfg) ∧
    (r = .notInitialized → ∃ n, s.inst? n = none ∧
      (i = .deinit n ∨ i = .get n ∨ i = .reset n ∨ (∃ p, i = .set n p) ∨
        ∃ min2 max2 step2, i = .reinit n min2 max2 step2)) ∧
    (r = .invalidArgument →
      (∃ cfg plat lvl0 now, i = .init cfg plat lvl0 now ∧ InitCheckFails s cfg) ∨
      (∃ n p k, i = .set n p ∧ s.inst? n = some k ∧ (p < k.min ∨ k.max < p)) ∨
      ∃ n min2 max2 step2 k, i = .reinit n min2 max2 step2 ∧ s.inst? n = some k ∧ (max2 ≤ min2 ∨ step2 ≤ 0))

/-- R163: no host command enqueues an event: it leaves the queue, or it is the `INIT` that creates it empty or the `DEINIT`
that destroys it, and it counts no drop. -/
def Obligations.HostCommandsNeverEnqueue : Prop :=
  ∀ (s t : State) (i : Instr), contextOf i = .caller → exec i s = .next t →
    t.qDrop ≤ s.qDrop ∧
    (t.fifo = s.fifo ∨ (∃ cfg plat lvl0 now, i = .init cfg plat lvl0 now ∧ t.fifo = some ⟨cfg.qcap, []⟩) ∨
      ∃ n, i = .deinit n ∧ t.fifo = none)

/-- R233: what each context writes. Interrupt side: `st`, `cnt`, `pos` and the button registers of an encoder, the tail of the
queue, the drop count. Consumer: the head of the queue, `CONS`, the trace, its two statistics, and no register set. Caller: no
publishing, and of an encoder that stays live only position, range and step. -/
def Obligations.ContextsWriteTheirOwn : Prop :=
  ∀ (s t : State) (i : Instr), exec i s = .next t →
    (contextOf i = .interrupt →
      KeepsConsumerSide s t ∧ t.numbers = s.numbers ∧ s.qDrop ≤ t.qDrop ∧
      (t.fifo = s.fifo ∨ ∃ f ev, s.fifo = some f ∧ t.fifo = some ⟨f.cap, f.q ++ [ev]⟩) ∧
      ∀ m r, s.inst? m = some r → ∃ r', t.inst? m = some r' ∧
        r' = { r with st := r'.st, cnt := r'.cnt, pos := r'.pos, btnLevel := r'.btnLevel, btnTime := r'.btnTime }) ∧
    (contextOf i = .consumer →
      t.reg = s.reg ∧ t.qDrop = s.qDrop ∧ SameContext s t ∧
      (t.fifo = s.fifo ∨ ∃ f ev rest, s.fifo = some f ∧ f.q = ev :: rest ∧ t.fifo = some ⟨f.cap, rest⟩)) ∧
    (contextOf i = .caller →
      t.bus = s.bus ∧ SameContext s t ∧
      ∀ m r r', s.inst? m = some r → t.inst? m = some r' →
        r' = { r with pos := r'.pos, min := r'.min, max := r'.max, step := r'.step })

/-- R20, R236: an operation never writes the register set of an encoder it does not name. -/
def Obligations.OtherEncodersUntouched : Prop :=
  ∀ (s t : State) (i : Instr) (m : Nat), i.number ≠ some m → exec i s = .next t → t.inst? m = s.inst? m

/-- R20, R236: an operation never reads the register set of an encoder it does not name: with any other register set under
that number it answers the same state, that register set aside. -/
def Obligations.OtherEncodersNotRead : Prop :=
  ∀ (s t : State) (i : Instr) (j : Inst), i.number ≠ some j.num → exec i s = .next t →
    exec i (s.setInst j) = .next (t.setInst j)

/-- R46, R177: the trace only grows, by the held event of a `PUB` answered `ok`. -/
def Obligations.BusGrowsByPublishing : Prop :=
  ∀ (s t : State) (i : Instr), exec i s = .next t →
    t.bus = s.bus ∨ ∃ free ev, i = .pub .ok free ∧ s.cons = .hold ev ∧ t.bus = s.bus ++ [ev]

/-- R47, R76: no operation writes the transition table, nor any other parameter. That the parameters ride in the state, where
this can be said, is the model's (DESIGN CHOICE, log 4). -/
def Obligations.TransitionTableConstant : Prop :=
  ∀ (s t : State) (i : Instr), exec i s = .next t → t.config.tt = s.config.tt ∧ t.config = s.config

/-- R55: every event an operation puts in the queue carries the number of an encoder that is live then. -/
def Obligations.NewEventsNameLiveEncoders : Prop :=
  ∀ (s t : State) (i : Instr), exec i s = .next t → ∀ ev ∈ t.queued, ev ∈ s.queued ∨ s.live ev.number = true
end

