-- ==== Sys2Proof/Laws/State.lean ====
section
/-! SUPPORT. One lemma per field per update of the state, each true by unfolding the update. -/

namespace Sys2Proof.Machine

variable (s : State)

@[simp] theorem State.respond_config (r : Response) : (s.respond r).config = s.config := rfl
@[simp] theorem State.respond_reg (r : Response) : (s.respond r).reg = s.reg := rfl
@[simp] theorem State.respond_fifo (r : Response) : (s.respond r).fifo = s.fifo := rfl
@[simp] theorem State.respond_cons (r : Response) : (s.respond r).cons = s.cons := rfl
@[simp] theorem State.respond_pubFail (r : Response) : (s.respond r).pubFail = s.pubFail := rfl
@[simp] theorem State.respond_qDrop (r : Response) : (s.respond r).qDrop = s.qDrop := rfl
@[simp] theorem State.respond_minFree (r : Response) : (s.respond r).minFree = s.minFree := rfl
@[simp] theorem State.respond_bus (r : Response) : (s.respond r).bus = s.bus := rfl
@[simp] theorem State.respond_stim (r : Response) : (s.respond r).stim = s.stim := rfl
@[simp] theorem State.respond_resp (r : Response) : (s.respond r).resp = r := rfl

@[simp] theorem State.setInst_config (i : Inst) : (s.setInst i).config = s.config := rfl
@[simp] theorem State.setInst_reg (i : Inst) : (s.setInst i).reg = putInst i s.reg := rfl
@[simp] theorem State.setInst_fifo (i : Inst) : (s.setInst i).fifo = s.fifo := rfl
@[simp] theorem State.setInst_cons (i : Inst) : (s.setInst i).cons = s.cons := rfl
@[simp] theorem State.setInst_pubFail (i : Inst) : (s.setInst i).pubFail = s.pubFail := rfl
@[simp] theorem State.setInst_qDrop (i : Inst) : (s.setInst i).qDrop = s.qDrop := rfl
@[simp] theorem State.setInst_minFree (i : Inst) : (s.setInst i).minFree = s.minFree := rfl
@[simp] theorem State.setInst_bus (i : Inst) : (s.setInst i).bus = s.bus := rfl
@[simp] theorem State.setInst_stim (i : Inst) : (s.setInst i).stim = s.stim := rfl
@[simp] theorem State.setInst_resp (i : Inst) : (s.setInst i).resp = s.resp := rfl

@[simp] theorem State.addInst_config (i : Inst) : (s.addInst i).config = s.config := rfl
@[simp] theorem State.addInst_reg (i : Inst) : (s.addInst i).reg = insertInst i s.reg := rfl
@[simp] theorem State.addInst_fifo (i : Inst) : (s.addInst i).fifo = s.fifo := rfl
@[simp] theorem State.addInst_cons (i : Inst) : (s.addInst i).cons = s.cons := rfl
@[simp] theorem State.addInst_pubFail (i : Inst) : (s.addInst i).pubFail = s.pubFail := rfl
@[simp] theorem State.addInst_qDrop (i : Inst) : (s.addInst i).qDrop = s.qDrop := rfl
@[simp] theorem State.addInst_minFree (i : Inst) : (s.addInst i).minFree = s.minFree := rfl
@[simp] theorem State.addInst_bus (i : Inst) : (s.addInst i).bus = s.bus := rfl
@[simp] theorem State.addInst_stim (i : Inst) : (s.addInst i).stim = s.stim := rfl
@[simp] theorem State.addInst_resp (i : Inst) : (s.addInst i).resp = s.resp := rfl

@[simp] theorem State.removeInst_config (n : Nat) : (s.removeInst n).config = s.config := rfl
@[simp] theorem State.removeInst_reg (n : Nat) : (s.removeInst n).reg = dropInst n s.reg := rfl
@[simp] theorem State.removeInst_fifo (n : Nat) : (s.removeInst n).fifo = s.fifo := rfl
@[simp] theorem State.removeInst_cons (n : Nat) : (s.removeInst n).cons = s.cons := rfl
@[simp] theorem State.removeInst_pubFail (n : Nat) : (s.removeInst n).pubFail = s.pubFail := rfl
@[simp] theorem State.removeInst_qDrop (n : Nat) : (s.removeInst n).qDrop = s.qDrop := rfl
@[simp] theorem State.removeInst_minFree (n : Nat) : (s.removeInst n).minFree = s.minFree := rfl
@[simp] theorem State.removeInst_bus (n : Nat) : (s.removeInst n).bus = s.bus := rfl
@[simp] theorem State.removeInst_stim (n : Nat) : (s.removeInst n).stim = s.stim := rfl
@[simp] theorem State.removeInst_resp (n : Nat) : (s.removeInst n).resp = s.resp := rfl

@[simp] theorem State.openShared_config (cap : Nat) : (s.openShared cap).config = s.config := rfl
@[simp] theorem State.openShared_reg (cap : Nat) : (s.openShared cap).reg = s.reg := rfl
@[simp] theorem State.openShared_fifo (cap : Nat) : (s.openShared cap).fifo = some ⟨cap, []⟩ := rfl
@[simp] theorem State.openShared_cons (cap : Nat) : (s.openShared cap).cons = .wait := rfl
@[simp] theorem State.openShared_pubFail (cap : Nat) : (s.openShared cap).pubFail = s.pubFail := rfl
@[simp] theorem State.openShared_qDrop (cap : Nat) : (s.openShared cap).qDrop = s.qDrop := rfl
@[simp] theorem State.openShared_minFree (cap : Nat) : (s.openShared cap).minFree = s.minFree := rfl
@[simp] theorem State.openShared_bus (cap : Nat) : (s.openShared cap).bus = s.bus := rfl
@[simp] theorem State.openShared_stim (cap : Nat) : (s.openShared cap).stim = s.stim := rfl
@[simp] theorem State.openShared_resp (cap : Nat) : (s.openShared cap).resp = s.resp := rfl

@[simp] theorem State.closeShared_config : s.closeShared.config = s.config := rfl
@[simp] theorem State.closeShared_reg : s.closeShared.reg = s.reg := rfl
@[simp] theorem State.closeShared_fifo : s.closeShared.fifo = none := rfl
@[simp] theorem State.closeShared_cons : s.closeShared.cons = .absent := rfl
@[simp] theorem State.closeShared_pubFail : s.closeShared.pubFail = s.pubFail := rfl
@[simp] theorem State.closeShared_qDrop : s.closeShared.qDrop = s.qDrop := rfl
@[simp] theorem State.closeShared_minFree : s.closeShared.minFree = s.minFree := rfl
@[simp] theorem State.closeShared_bus : s.closeShared.bus = s.bus := rfl
@[simp] theorem State.closeShared_stim : s.closeShared.stim = s.stim := rfl
@[simp] theorem State.closeShared_resp : s.closeShared.resp = s.resp := rfl

@[simp] theorem State.advance_config (rest : List Item) : (s.advance rest).config = s.config := rfl
@[simp] theorem State.advance_reg (rest : List Item) : (s.advance rest).reg = s.reg := rfl
@[simp] theorem State.advance_fifo (rest : List Item) : (s.advance rest).fifo = s.fifo := rfl
@[simp] theorem State.advance_cons (rest : List Item) : (s.advance rest).cons = s.cons := rfl
@[simp] theorem State.advance_pubFail (rest : List Item) : (s.advance rest).pubFail = s.pubFail := rfl
@[simp] theorem State.advance_qDrop (rest : List Item) : (s.advance rest).qDrop = s.qDrop := rfl
@[simp] theorem State.advance_minFree (rest : List Item) : (s.advance rest).minFree = s.minFree := rfl
@[simp] theorem State.advance_bus (rest : List Item) : (s.advance rest).bus = s.bus := rfl
@[simp] theorem State.advance_stim (rest : List Item) : (s.advance rest).stim = rest := rfl
@[simp] theorem State.advance_resp (rest : List Item) : (s.advance rest).resp = s.resp := rfl

@[simp] theorem State.powerOn_config (c : Config) : (State.powerOn c).config = c := rfl
@[simp] theorem State.powerOn_reg (c : Config) : (State.powerOn c).reg = [] := rfl
@[simp] theorem State.powerOn_fifo (c : Config) : (State.powerOn c).fifo = none := rfl
@[simp] theorem State.powerOn_cons (c : Config) : (State.powerOn c).cons = .absent := rfl
@[simp] theorem State.powerOn_pubFail (c : Config) : (State.powerOn c).pubFail = 0 := rfl
@[simp] theorem State.powerOn_qDrop (c : Config) : (State.powerOn c).qDrop = 0 := rfl
@[simp] theorem State.powerOn_minFree (c : Config) : (State.powerOn c).minFree = none := rfl
@[simp] theorem State.powerOn_bus (c : Config) : (State.powerOn c).bus = [] := rfl
@[simp] theorem State.powerOn_stim (c : Config) : (State.powerOn c).stim = [] := rfl
@[simp] theorem State.powerOn_resp (c : Config) : (State.powerOn c).resp = .silent := rfl

variable (i : Inst)

@[simp] theorem Inst.setPos_num (p : Num) : (i.setPos p).num = i.num := rfl
@[simp] theorem Inst.setPos_strategy (p : Num) : (i.setPos p).strategy = i.strategy := rfl
@[simp] theorem Inst.setPos_pos (p : Num) : (i.setPos p).pos = p := rfl
@[simp] theorem Inst.setPos_min (p : Num) : (i.setPos p).min = i.min := rfl
@[simp] theorem Inst.setPos_max (p : Num) : (i.setPos p).max = i.max := rfl
@[simp] theorem Inst.setPos_step (p : Num) : (i.setPos p).step = i.step := rfl
@[simp] theorem Inst.setPos_pinA (p : Num) : (i.setPos p).pinA = i.pinA := rfl
@[simp] theorem Inst.setPos_pinB (p : Num) : (i.setPos p).pinB = i.pinB := rfl
@[simp] theorem Inst.setPos_pinBtn (p : Num) : (i.setPos p).pinBtn = i.pinBtn := rfl
@[simp] theorem Inst.setPos_pullup (p : Num) : (i.setPos p).pullup = i.pullup := rfl
@[simp] theorem Inst.setPos_st (p : Num) : (i.setPos p).st = i.st := rfl
@[simp] theorem Inst.setPos_cnt (p : Num) : (i.setPos p).cnt = i.cnt := rfl
@[simp] theorem Inst.setPos_deb (p : Num) : (i.setPos p).deb = i.deb := rfl
@[simp] theorem Inst.setPos_btnLevel (p : Num) : (i.setPos p).btnLevel = i.btnLevel := rfl
@[simp] theorem Inst.setPos_btnTime (p : Num) : (i.setPos p).btnTime = i.btnTime := rfl
@[simp] theorem Inst.setPos_prio (p : Num) : (i.setPos p).prio = i.prio := rfl
@[simp] theorem Inst.setPos_stack (p : Num) : (i.setPos p).stack = i.stack := rfl
@[simp] theorem Inst.setPos_qcap (p : Num) : (i.setPos p).qcap = i.qcap := rfl

@[simp] theorem Inst.setSt_num (v : BitVec 4) : (i.setSt v).num = i.num := rfl
@[simp] theorem Inst.setSt_strategy (v : BitVec 4) : (i.setSt v).strategy = i.strategy := rfl
@[simp] theorem Inst.setSt_pos (v : BitVec 4) : (i.setSt v).pos = i.pos := rfl
@[simp] theorem Inst.setSt_min (v : BitVec 4) : (i.setSt v).min = i.min := rfl
@[simp] theorem Inst.setSt_max (v : BitVec 4) : (i.setSt v).max = i.max := rfl
@[simp] theorem Inst.setSt_step (v : BitVec 4) : (i.setSt v).step = i.step := rfl
@[simp] theorem Inst.setSt_pinA (v : BitVec 4) : (i.setSt v).pinA = i.pinA := rfl
@[simp] theorem Inst.setSt_pinB (v : BitVec 4) : (i.setSt v).pinB = i.pinB := rfl
@[simp] theorem Inst.setSt_pinBtn (v : BitVec 4) : (i.setSt v).pinBtn = i.pinBtn := rfl
@[simp] theorem Inst.setSt_pullup (v : BitVec 4) : (i.setSt v).pullup = i.pullup := rfl
@[simp] theorem Inst.setSt_st (v : BitVec 4) : (i.setSt v).st = v := rfl
@[simp] theorem Inst.setSt_cnt (v : BitVec 4) : (i.setSt v).cnt = i.cnt := rfl
@[simp] theorem Inst.setSt_deb (v : BitVec 4) : (i.setSt v).deb = i.deb := rfl
@[simp] theorem Inst.setSt_btnLevel (v : BitVec 4) : (i.setSt v).btnLevel = i.btnLevel := rfl
@[simp] theorem Inst.setSt_btnTime (v : BitVec 4) : (i.setSt v).btnTime = i.btnTime := rfl
@[simp] theorem Inst.setSt_prio (v : BitVec 4) : (i.setSt v).prio = i.prio := rfl
@[simp] theorem Inst.setSt_stack (v : BitVec 4) : (i.setSt v).stack = i.stack := rfl
@[simp] theorem Inst.setSt_qcap (v : BitVec 4) : (i.setSt v).qcap = i.qcap := rfl

@[simp] theorem Inst.setCnt_num (v : Int) : (i.setCnt v).num = i.num := rfl
@[simp] theorem Inst.setCnt_strategy (v : Int) : (i.setCnt v).strategy = i.strategy := rfl
@[simp] theorem Inst.setCnt_pos (v : Int) : (i.setCnt v).pos = i.pos := rfl
@[simp] theorem Inst.setCnt_min (v : Int) : (i.setCnt v).min = i.min := rfl
@[simp] theorem Inst.setCnt_max (v : Int) : (i.setCnt v).max = i.max := rfl
@[simp] theorem Inst.setCnt_step (v : Int) : (i.setCnt v).step = i.step := rfl
@[simp] theorem Inst.setCnt_pinA (v : Int) : (i.setCnt v).pinA = i.pinA := rfl
@[simp] theorem Inst.setCnt_pinB (v : Int) : (i.setCnt v).pinB = i.pinB := rfl
@[simp] theorem Inst.setCnt_pinBtn (v : Int) : (i.setCnt v).pinBtn = i.pinBtn := rfl
@[simp] theorem Inst.setCnt_pullup (v : Int) : (i.setCnt v).pullup = i.pullup := rfl
@[simp] theorem Inst.setCnt_st (v : Int) : (i.setCnt v).st = i.st := rfl
@[simp] theorem Inst.setCnt_cnt (v : Int) : (i.setCnt v).cnt = v := rfl
@[simp] theorem Inst.setCnt_deb (v : Int) : (i.setCnt v).deb = i.deb := rfl
@[simp] theorem Inst.setCnt_btnLevel (v : Int) : (i.setCnt v).btnLevel = i.btnLevel := rfl
@[simp] theorem Inst.setCnt_btnTime (v : Int) : (i.setCnt v).btnTime = i.btnTime := rfl
@[simp] theorem Inst.setCnt_prio (v : Int) : (i.setCnt v).prio = i.prio := rfl
@[simp] theorem Inst.setCnt_stack (v : Int) : (i.setCnt v).stack = i.stack := rfl
@[simp] theorem Inst.setCnt_qcap (v : Int) : (i.setCnt v).qcap = i.qcap := rfl

@[simp] theorem Inst.setBtnLevel_num (l : Level) : (i.setBtnLevel l).num = i.num := rfl
@[simp] theorem Inst.setBtnLevel_strategy (l : Level) : (i.setBtnLevel l).strategy = i.strategy := rfl
@[simp] theorem Inst.setBtnLevel_pos (l : Level) : (i.setBtnLevel l).pos = i.pos := rfl
@[simp] theorem Inst.setBtnLevel_min (l : Level) : (i.setBtnLevel l).min = i.min := rfl
@[simp] theorem Inst.setBtnLevel_max (l : Level) : (i.setBtnLevel l).max = i.max := rfl
@[simp] theorem Inst.setBtnLevel_step (l : Level) : (i.setBtnLevel l).step = i.step := rfl
@[simp] theorem Inst.setBtnLevel_pinA (l : Level) : (i.setBtnLevel l).pinA = i.pinA := rfl
@[simp] theorem Inst.setBtnLevel_pinB (l : Level) : (i.setBtnLevel l).pinB = i.pinB := rfl
@[simp] theorem Inst.setBtnLevel_pinBtn (l : Level) : (i.setBtnLevel l).pinBtn = i.pinBtn := rfl
@[simp] theorem Inst.setBtnLevel_pullup (l : Level) : (i.setBtnLevel l).pullup = i.pullup := rfl
@[simp] theorem Inst.setBtnLevel_st (l : Level) : (i.setBtnLevel l).st = i.st := rfl
@[simp] theorem Inst.setBtnLevel_cnt (l : Level) : (i.setBtnLevel l).cnt = i.cnt := rfl
@[simp] theorem Inst.setBtnLevel_deb (l : Level) : (i.setBtnLevel l).deb = i.deb := rfl
@[simp] theorem Inst.setBtnLevel_btnLevel (l : Level) : (i.setBtnLevel l).btnLevel = l := rfl
@[simp] theorem Inst.setBtnLevel_btnTime (l : Level) : (i.setBtnLevel l).btnTime = i.btnTime := rfl
@[simp] theorem Inst.setBtnLevel_prio (l : Level) : (i.setBtnLevel l).prio = i.prio := rfl
@[simp] theorem Inst.setBtnLevel_stack (l : Level) : (i.setBtnLevel l).stack = i.stack := rfl
@[simp] theorem Inst.setBtnLevel_qcap (l : Level) : (i.setBtnLevel l).qcap = i.qcap := rfl

@[simp] theorem Inst.setBtnTime_num (t : Nat) : (i.setBtnTime t).num = i.num := rfl
@[simp] theorem Inst.setBtnTime_strategy (t : Nat) : (i.setBtnTime t).strategy = i.strategy := rfl
@[simp] theorem Inst.setBtnTime_pos (t : Nat) : (i.setBtnTime t).pos = i.pos := rfl
@[simp] theorem Inst.setBtnTime_min (t : Nat) : (i.setBtnTime t).min = i.min := rfl
@[simp] theorem Inst.setBtnTime_max (t : Nat) : (i.setBtnTime t).max = i.max := rfl
@[simp] theorem Inst.setBtnTime_step (t : Nat) : (i.setBtnTime t).step = i.step := rfl
@[simp] theorem Inst.setBtnTime_pinA (t : Nat) : (i.setBtnTime t).pinA = i.pinA := rfl
@[simp] theorem Inst.setBtnTime_pinB (t : Nat) : (i.setBtnTime t).pinB = i.pinB := rfl
@[simp] theorem Inst.setBtnTime_pinBtn (t : Nat) : (i.setBtnTime t).pinBtn = i.pinBtn := rfl
@[simp] theorem Inst.setBtnTime_pullup (t : Nat) : (i.setBtnTime t).pullup = i.pullup := rfl
@[simp] theorem Inst.setBtnTime_st (t : Nat) : (i.setBtnTime t).st = i.st := rfl
@[simp] theorem Inst.setBtnTime_cnt (t : Nat) : (i.setBtnTime t).cnt = i.cnt := rfl
@[simp] theorem Inst.setBtnTime_deb (t : Nat) : (i.setBtnTime t).deb = i.deb := rfl
@[simp] theorem Inst.setBtnTime_btnLevel (t : Nat) : (i.setBtnTime t).btnLevel = i.btnLevel := rfl
@[simp] theorem Inst.setBtnTime_btnTime (t : Nat) : (i.setBtnTime t).btnTime = t := rfl
@[simp] theorem Inst.setBtnTime_prio (t : Nat) : (i.setBtnTime t).prio = i.prio := rfl
@[simp] theorem Inst.setBtnTime_stack (t : Nat) : (i.setBtnTime t).stack = i.stack := rfl
@[simp] theorem Inst.setBtnTime_qcap (t : Nat) : (i.setBtnTime t).qcap = i.qcap := rfl

@[simp] theorem Inst.setRange_num (lo hi d : Num) : (i.setRange lo hi d).num = i.num := rfl
@[simp] theorem Inst.setRange_strategy (lo hi d : Num) : (i.setRange lo hi d).strategy = i.strategy := rfl
@[simp] theorem Inst.setRange_pos (lo hi d : Num) : (i.setRange lo hi d).pos = i.pos := rfl
@[simp] theorem Inst.setRange_min (lo hi d : Num) : (i.setRange lo hi d).min = lo := rfl
@[simp] theorem Inst.setRange_max (lo hi d : Num) : (i.setRange lo hi d).max = hi := rfl
@[simp] theorem Inst.setRange_step (lo hi d : Num) : (i.setRange lo hi d).step = d := rfl
@[simp] theorem Inst.setRange_pinA (lo hi d : Num) : (i.setRange lo hi d).pinA = i.pinA := rfl
@[simp] theorem Inst.setRange_pinB (lo hi d : Num) : (i.setRange lo hi d).pinB = i.pinB := rfl
@[simp] theorem Inst.setRange_pinBtn (lo hi d : Num) : (i.setRange lo hi d).pinBtn = i.pinBtn := rfl
@[simp] theorem Inst.setRange_pullup (lo hi d : Num) : (i.setRange lo hi d).pullup = i.pullup := rfl
@[simp] theorem Inst.setRange_st (lo hi d : Num) : (i.setRange lo hi d).st = i.st := rfl
@[simp] theorem Inst.setRange_cnt (lo hi d : Num) : (i.setRange lo hi d).cnt = i.cnt := rfl
@[simp] theorem Inst.setRange_deb (lo hi d : Num) : (i.setRange lo hi d).deb = i.deb := rfl
@[simp] theorem Inst.setRange_btnLevel (lo hi d : Num) : (i.setRange lo hi d).btnLevel = i.btnLevel := rfl
@[simp] theorem Inst.setRange_btnTime (lo hi d : Num) : (i.setRange lo hi d).btnTime = i.btnTime := rfl
@[simp] theorem Inst.setRange_prio (lo hi d : Num) : (i.setRange lo hi d).prio = i.prio := rfl
@[simp] theorem Inst.setRange_stack (lo hi d : Num) : (i.setRange lo hi d).stack = i.stack := rfl
@[simp] theorem Inst.setRange_qcap (lo hi d : Num) : (i.setRange lo hi d).qcap = i.qcap := rfl

end Sys2Proof.Machine
end

