-- ==== Sys2Proof/Laws/Registry.lean ====
section
/-! SUPPORT. What the registry operations do to each register set and to the set of numbers, and that they keep the rising
order. -/

namespace Sys2Proof.Machine

/-- The register set read for `n` carries the number `n` (R21). -/
theorem State.inst?_num {s : State} {n : Nat} {i : Inst} (h : s.inst? n = some i) : i.num = n := by
  have := List.find?_some h
  simpa using this

/-- A register set that is read is registered. -/
theorem State.inst?_mem {s : State} {n : Nat} {i : Inst} (h : s.inst? n = some i) : i ∈ s.reg :=
  List.mem_of_find?_eq_some h

/-- No register set is read for a number that is not registered. -/
theorem State.inst?_eq_none {s : State} {n : Nat} : s.inst? n = none ↔ ∀ i ∈ s.reg, i.num ≠ n := by
  simp [State.inst?, List.find?_eq_none]

/-- Reading a register set depends on the registry alone. -/
theorem State.inst?_congr {s t : State} (h : t.reg = s.reg) (n : Nat) : t.inst? n = s.inst? n := by
  simp [State.inst?, h]

@[simp] theorem State.respond_inst? (s : State) (r : Response) (n : Nat) : (s.respond r).inst? n = s.inst? n := rfl

@[simp] theorem State.advance_inst? (s : State) (rest : List Item) (n : Nat) :
    (s.advance rest).inst? n = s.inst? n := rfl

@[simp] theorem State.openShared_inst? (s : State) (cap : Nat) (n : Nat) :
    (s.openShared cap).inst? n = s.inst? n := rfl

@[simp] theorem State.closeShared_inst? (s : State) (n : Nat) : s.closeShared.inst? n = s.inst? n := rfl

/-- Writing a register set back keeps every number in its place. -/
@[simp] theorem putInst_numbers (i : Inst) (reg : List Inst) : (putInst i reg).map Inst.num = reg.map Inst.num := by
  induction reg with
  | nil => rfl
  | cons j js ih =>
    have hj : (if j.num = i.num then i else j).num = j.num := by
      by_cases h : j.num = i.num <;> simp [h]
    simpa [putInst, hj] using ih

/-- A lookup in a list headed by another number. -/
theorem find_cons_ne {k : Inst} {ks : List Inst} {n : Nat} (h : k.num ≠ n) :
    (k :: ks).find? (fun x => x.num == n) = ks.find? (fun x => x.num == n) := by
  simp [beq_eq_false_iff_ne.2 h]

/-- A lookup in a list headed by the number sought. -/
theorem find_cons_eq {k : Inst} {ks : List Inst} {n : Nat} (h : k.num = n) :
    (k :: ks).find? (fun x => x.num == n) = some k := by
  simp [h]

/-- Lookup after a write-back, same number. -/
theorem find_putInst_same {i j : Inst} {reg : List Inst} (h : reg.find? (fun x => x.num == i.num) = some j) :
    (putInst i reg).find? (fun x => x.num == i.num) = some i := by
  induction reg with
  | nil => simp at h
  | cons k ks ih =>
    by_cases hk : k.num = i.num
    · simp [putInst, hk]
    · rw [find_cons_ne hk] at h
      have e : putInst i (k :: ks) = k :: putInst i ks := by simp [putInst, hk]
      rw [e, find_cons_ne hk, ih h]

/-- Lookup after a write-back, another number. -/
theorem find_putInst_other {i : Inst} {m : Nat} (h : m ≠ i.num) (reg : List Inst) :
    (putInst i reg).find? (fun x => x.num == m) = reg.find? (fun x => x.num == m) := by
  induction reg with
  | nil => rfl
  | cons k ks ih =>
    by_cases hk : k.num = i.num
    · have e : putInst i (k :: ks) = i :: putInst i ks := by simp [putInst, hk]
      rw [e, find_cons_ne h.symm, ih, find_cons_ne (hk ▸ h.symm)]
    · have e : putInst i (k :: ks) = k :: putInst i ks := by simp [putInst, hk]
      by_cases hm : k.num = m
      · rw [e, find_cons_eq hm, find_cons_eq hm]
      · rw [e, find_cons_ne hm, find_cons_ne hm, ih]

/-- Lookup after an insertion, same number. -/
theorem find_insertInst_same {i : Inst} {reg : List Inst} (h : reg.find? (fun x => x.num == i.num) = none) :
    (insertInst i reg).find? (fun x => x.num == i.num) = some i := by
  induction reg with
  | nil => simp [insertInst]
  | cons k ks ih =>
    have hk : k.num ≠ i.num := fun e => by rw [find_cons_eq e] at h; cases h
    rw [find_cons_ne hk] at h
    by_cases hlt : i.num < k.num
    · simp only [insertInst, hlt, if_true]
      exact find_cons_eq rfl
    · simp only [insertInst, hlt, if_false]
      rw [find_cons_ne hk, ih h]

/-- Lookup after an insertion, another number. -/
theorem find_insertInst_other {i : Inst} {m : Nat} (h : m ≠ i.num) (reg : List Inst) :
    (insertInst i reg).find? (fun x => x.num == m) = reg.find? (fun x => x.num == m) := by
  induction reg with
  | nil => exact find_cons_ne h.symm
  | cons k ks ih =>
    by_cases hlt : i.num < k.num
    · simp only [insertInst, hlt, if_true]
      exact find_cons_ne h.symm
    · simp only [insertInst, hlt, if_false]
      by_cases hm : k.num = m
      · rw [find_cons_eq hm, find_cons_eq hm]
      · rw [find_cons_ne hm, find_cons_ne hm, ih]

/-- Lookup after a removal, another number. -/
theorem find_dropInst_other {n m : Nat} (h : m ≠ n) (reg : List Inst) :
    (dropInst n reg).find? (fun x => x.num == m) = reg.find? (fun x => x.num == m) := by
  induction reg with
  | nil => rfl
  | cons k ks ih =>
    by_cases hk : k.num = n
    · have e : dropInst n (k :: ks) = dropInst n ks := by simp [dropInst, hk]
      rw [e, ih, find_cons_ne (hk ▸ h.symm)]
    · have e : dropInst n (k :: ks) = k :: dropInst n ks := by simp [dropInst, hk]
      by_cases hm : k.num = m
      · rw [e, find_cons_eq hm, find_cons_eq hm]
      · rw [e, find_cons_ne hm, find_cons_ne hm, ih]

/-- After `I[n] <- i`, a read of a live `n` gives `i` (R10). -/
theorem State.setInst_inst?_same {s : State} {i j : Inst} (h : s.inst? i.num = some j) :
    (s.setInst i).inst? i.num = some i := find_putInst_same h

/-- `I[n] <- i` leaves every other register set alone (R236). -/
theorem State.setInst_inst?_other (s : State) {i : Inst} {m : Nat} (h : m ≠ i.num) :
    (s.setInst i).inst? m = s.inst? m := find_putInst_other h s.reg

/-- A new register set is read under its number (R191). -/
theorem State.addInst_inst?_same {s : State} {i : Inst} (h : s.inst? i.num = none) :
    (s.addInst i).inst? i.num = some i := find_insertInst_same h

/-- A new register set leaves every other one alone (R236). -/
theorem State.addInst_inst?_other (s : State) {i : Inst} {m : Nat} (h : m ≠ i.num) :
    (s.addInst i).inst? m = s.inst? m := find_insertInst_other h s.reg

/-- A removed register set is read no more (R200). -/
theorem State.removeInst_inst?_same (s : State) (n : Nat) : (s.removeInst n).inst? n = none := by
  rw [State.inst?_eq_none]
  intro i hi
  simp [dropInst] at hi
  exact hi.2

/-- Removing a register set leaves every other one alone (R236). -/
theorem State.removeInst_inst?_other (s : State) {n m : Nat} (h : m ≠ n) :
    (s.removeInst n).inst? m = s.inst? m := find_dropInst_other h s.reg

/-- Two write-backs of one number: the later stands. -/
theorem putInst_putInst {i j : Inst} (h : i.num = j.num) (reg : List Inst) :
    putInst j (putInst i reg) = putInst j reg := by
  simp only [putInst, List.map_map]
  apply List.map_congr_left
  intro k _
  by_cases hk : k.num = j.num <;> simp [hk, h]

/-- A write-back keeps the set of live numbers. -/
@[simp] theorem State.setInst_numbers (s : State) (i : Inst) : (s.setInst i).numbers = s.numbers :=
  putInst_numbers i s.reg

@[simp] theorem State.respond_numbers (s : State) (r : Response) : (s.respond r).numbers = s.numbers := rfl

/-- Membership after a write-back. -/
theorem mem_putInst {i j : Inst} {reg : List Inst} (h : j ∈ putInst i reg) : j = i ∨ j ∈ reg := by
  simp only [putInst, List.mem_map] at h
  obtain ⟨k, hk, rfl⟩ := h
  by_cases e : k.num = i.num
  · simp [e]
  · simp [e, hk]

/-- Membership after an insertion. -/
@[simp] theorem mem_insertInst {i j : Inst} {reg : List Inst} : j ∈ insertInst i reg ↔ j = i ∨ j ∈ reg := by
  induction reg with
  | nil => simp [insertInst]
  | cons k ks ih =>
    by_cases hlt : i.num < k.num
    · simp [insertInst, hlt]
    · simp [insertInst, hlt, ih]
      tauto

/-- An insertion adds one register set. -/
@[simp] theorem length_insertInst (i : Inst) (reg : List Inst) : (insertInst i reg).length = reg.length + 1 := by
  induction reg with
  | nil => rfl
  | cons k ks ih =>
    by_cases hlt : i.num < k.num
    · simp [insertInst, hlt]
    · simp [insertInst, hlt, ih]

/-- A write-back keeps the rising order. -/
theorem putInst_rising {i : Inst} {reg : List Inst} (h : reg.Pairwise (fun a b => a.num < b.num)) :
    (putInst i reg).Pairwise (fun a b => a.num < b.num) := by
  have hm : ∀ l : List Inst, l.Pairwise (fun a b => a.num < b.num) ↔ (l.map Inst.num).Pairwise (· < ·) := by
    intro l
    rw [List.pairwise_map]
  rw [hm, putInst_numbers, ← hm]
  exact h

/-- Inserting a new number keeps the rising order. -/
theorem insertInst_rising {i : Inst} {reg : List Inst} (h : reg.Pairwise (fun a b => a.num < b.num))
    (hn : ∀ j ∈ reg, j.num ≠ i.num) : (insertInst i reg).Pairwise (fun a b => a.num < b.num) := by
  induction reg with
  | nil => simp [insertInst]
  | cons k ks ih =>
    obtain ⟨hk, hks⟩ := List.pairwise_cons.1 h
    by_cases hlt : i.num < k.num
    · simp only [insertInst, hlt, if_true]
      refine List.pairwise_cons.2 ⟨?_, h⟩
      intro j hj
      rcases List.mem_cons.1 hj with rfl | hj
      · exact hlt
      · exact lt_trans hlt (hk j hj)
    · simp only [insertInst, hlt, if_false]
      refine List.pairwise_cons.2 ⟨?_, ih hks fun j hj => hn j (List.mem_cons_of_mem _ hj)⟩
      intro j hj
      rcases mem_insertInst.1 hj with rfl | hj
      · exact lt_of_le_of_ne (not_lt.1 hlt) (hn k List.mem_cons_self)
      · exact hk j hj

/-- A removal keeps the rising order. -/
theorem dropInst_rising {n : Nat} {reg : List Inst} (h : reg.Pairwise (fun a b => a.num < b.num)) :
    (dropInst n reg).Pairwise (fun a b => a.num < b.num) := h.sublist List.filter_sublist

end Sys2Proof.Machine
end

