-- ==== Sys2Proof/Laws/Ops.lean ====
section
/-! SUPPORT. What each shared operation can do, said once: `enqueue`, `pos_step`, the opening and closing of the shared
queue, and the arithmetic of the rules. -/

namespace Sys2Proof.Machine

/-- Everything `enqueue` can answer (R171): without a queue it faults, else the event is appended or counted. -/
theorem enqueue_next {ev : Event} {s t : State} (h : enqueue ev s = .next t) :
    ∃ f, s.fifo = some f ∧
      ((f.q.length < f.cap ∧ t = { s with fifo := some ⟨f.cap, f.q ++ [ev]⟩ }) ∨
        (f.cap ≤ f.q.length ∧ t = { s with qDrop := s.qDrop + 1 })) := by
  unfold enqueue at h
  split at h
  · cases h
  · rename_i f hf
    split at h
    · cases h
      exact ⟨f, hf, .inl ⟨‹_›, rfl⟩⟩
    · cases h
      exact ⟨f, hf, .inr ⟨by omega, rfl⟩⟩

/-- With a free slot, `enqueue` appends (R171). -/
theorem enqueue_append {ev : Event} {s : State} {f : Queue} (hf : s.fifo = some f) (h : f.q.length < f.cap) :
    enqueue ev s = .next { s with fifo := some ⟨f.cap, f.q ++ [ev]⟩ } := by
  simp [enqueue, hf, h]

/-- Without a free slot, `enqueue` counts a drop (R171, R172). -/
theorem enqueue_drop {ev : Event} {s : State} {f : Queue} (hf : s.fifo = some f) (h : ¬ f.q.length < f.cap) :
    enqueue ev s = .next { s with qDrop := s.qDrop + 1 } := by
  simp [enqueue, hf, h]

/-- While the queue exists, `enqueue` completes, and touches the queue and the drop count alone (R171, R173). -/
theorem enqueue_completes (ev : Event) {s : State} {f : Queue} (hf : s.fifo = some f) :
    ∃ t, enqueue ev s = .next t ∧ Enqueued ev f s t ∧ t.reg = s.reg ∧ t.cons = s.cons ∧ t.pubFail = s.pubFail ∧
      t.minFree = s.minFree ∧ t.bus = s.bus ∧ t.resp = s.resp ∧ SameContext s t := by
  by_cases h : f.q.length < f.cap
  · exact ⟨_, enqueue_append hf h, by simp [Enqueued, h], rfl, rfl, rfl, rfl, rfl, rfl, rfl, rfl⟩
  · exact ⟨_, enqueue_drop hf h, by simp [Enqueued, h], rfl, rfl, rfl, rfl, rfl, rfl, rfl, rfl⟩

/-- `enqueue` never refuses. -/
theorem enqueue_not_refused (ev : Event) (s : State) (r : Refusal) : enqueue ev s ≠ .refused r := by
  unfold enqueue
  split
  · simp
  · split <;> simp

/-- Everything `pos_step` can answer (R151): the position is written, and an event is offered when it changed. -/
theorem posStep_next {i : Inst} {d : Dir} {s t : State} (h : posStep i d s = .next t) :
    (stepTarget i d = i.pos ∧ t = s.setInst (i.setPos (stepTarget i d))) ∨
      (stepTarget i d ≠ i.pos ∧
        enqueue (.motion i.num (stepTarget i d)) (s.setInst (i.setPos (stepTarget i d))) = .next t) := by
  unfold posStep at h
  simp only at h
  split at h
  · cases h
    exact .inl ⟨‹_›, rfl⟩
  · exact .inr ⟨‹_›, h⟩

/-- While the queue exists, `pos_step` completes: one register set is written, and the queue or the drop count (R151). -/
theorem posStep_completes (i : Inst) (d : Dir) {s : State} {f : Queue} (hf : s.fifo = some f) :
    ∃ t, posStep i d s = .next t ∧ t.reg = putInst (i.setPos (stepTarget i d)) s.reg ∧
      (if stepTarget i d = i.pos then t.fifo = s.fifo ∧ t.qDrop = s.qDrop
        else Enqueued (.motion i.num (stepTarget i d)) f s t) ∧
      t.cons = s.cons ∧ t.pubFail = s.pubFail ∧ t.minFree = s.minFree ∧ t.bus = s.bus ∧ t.resp = s.resp ∧
      SameContext s t := by
  by_cases h : stepTarget i d = i.pos
  · exact ⟨s.setInst (i.setPos (stepTarget i d)), by simp [posStep, h], rfl, by simp [h], rfl, rfl, rfl, rfl, rfl,
      rfl, rfl⟩
  · obtain ⟨t, ht, hq, hr⟩ := enqueue_completes (.motion i.num (stepTarget i d))
      (s := s.setInst (i.setPos (stepTarget i d))) (f := f) hf
    exact ⟨t, by simp [posStep, h, ht], hr.1, by simpa [h, Enqueued] using hq, hr.2⟩

/-- The decoder registers do not enter into a decoded step (R151). -/
@[simp] theorem stepTarget_setSt (i : Inst) (v : BitVec 4) (d : Dir) : stepTarget (i.setSt v) d = stepTarget i d := by
  cases d <;> rfl

@[simp] theorem stepTarget_setCnt (i : Inst) (v : Int) (d : Dir) : stepTarget (i.setCnt v) d = stepTarget i d := by
  cases d <;> rfl

/-- A register set of a live encoder written back is the only one written. -/
theorem onlyWritten_of_reg {s t : State} {n : Nat} {i j : Inst} (h : s.inst? n = some i) (hj : j.num = n)
    (ht : t.reg = putInst j s.reg) : OnlyWritten n j s t := by
  subst hj
  have ht' : t.reg = (s.setInst j).reg := ht
  refine ⟨?_, fun m hm => ?_, ?_⟩
  · rw [State.inst?_congr ht', State.setInst_inst?_same h]
  · rw [State.inst?_congr ht', State.setInst_inst?_other s hm]
  · simp [State.numbers, ht]

/-- The row a state nibble selects is its value (R29). -/
theorem rowOf_eq {st : BitVec 4} {row : Fin 6} (h : st.toNat = row.val) : rowOf st = some row := by
  have h6 : st.toNat < 6 := h ▸ row.isLt
  simp only [rowOf, h6, dite_true, Option.some.injEq]
  exact Fin.ext h

/-- A reserved state nibble selects no row (R90). -/
theorem rowOf_eq_none {st : BitVec 4} (h : 5 < st.toNat) : rowOf st = none := by
  have h6 : ¬ st.toNat < 6 := by omega
  simp [rowOf, h6]

/-- A clamp lands between its bounds (R11). -/
theorem clamp_mem {lo hi v : Num} (h : lo ≤ hi) : lo ≤ clamp lo hi v ∧ clamp lo hi v ≤ hi := by
  unfold clamp
  split
  · exact ⟨le_refl _, h⟩
  · split
    · exact ⟨h, le_refl _⟩
    · exact ⟨not_lt.1 ‹_›, not_lt.1 ‹_›⟩

/-- The midpoint lies strictly between two bounds that differ (R158). -/
theorem mid_between {lo hi : Num} (h : lo < hi) : lo < mid lo hi ∧ mid lo hi < hi := by
  unfold mid
  constructor <;> linarith

/-- A decoded step leads to a position inside the range (R153). -/
theorem stepTarget_mem {i : Inst} (hv : i.Valid) (d : Dir) : i.min ≤ stepTarget i d ∧ stepTarget i d ≤ i.max := by
  obtain ⟨hlt, -, h1, h2, -⟩ := hv
  cases d with
  | none => exact ⟨h1, h2⟩
  | cw => exact clamp_mem hlt.le
  | ccw => exact clamp_mem hlt.le

/-- Every next state of a table is a legal row (R29, R102). -/
theorem zext4_le (next : Fin 6) : (zext4 next).toNat ≤ 5 := by
  revert next
  decide

/-- The next state's zero extension has its value (R12, R84). -/
theorem zext4_toNat (next : Fin 6) : (zext4 next).toNat = next.val := by
  revert next
  decide

/-- The queue and the consumer after `INIT`'s opening (R191, R195). -/
theorem openIfFirst_cases (cap : Nat) (s : State) :
    (s.reg = [] ∧ openIfFirst cap s = s.openShared cap) ∨ (s.reg ≠ [] ∧ openIfFirst cap s = s) := by
  unfold openIfFirst
  split <;> simp [*]

/-- The queue and the consumer after `DEINIT`'s closing (R200, R201). -/
theorem closeIfLast_cases (s : State) :
    (s.reg = [] ∧ closeIfLast s = s.closeShared) ∨ (s.reg ≠ [] ∧ closeIfLast s = s) := by
  unfold closeIfLast
  split <;> simp [*]

end Sys2Proof.Machine
end

