-- ==== Sys2Proof/Laws/PerInstr.lean ====
section
/-! SUPPORT. The family `Encoding`: what the stimulus word of each operation says, row by row of the opcode map (R81, R82,
R88): the word selects its own row, its fields read back, and the operand values have the types of the row. -/

namespace Sys2Proof.Laws.Encoding

/-- The word of a well-formed operation selects the operation's row, carries its number and its small operands, and is
followed by operand values of the row's types in the row's order (R81, R82, R88). -/
def Statement (i : Instr) : Prop :=
  i.wellFormed = true →
    selectOpcode (encodeWord i) = some i.opcode ∧ wordNumber (encodeWord i) = i.number.getD 0 ∧
      wordImm (encodeWord i) = i.imm ∧ i.operands.map Item.kind = i.opcode.operandKinds.map some

/-- The number field of a word put together from its fields (R81). -/
theorem wordNumber_append (op : BitVec 8) {n : Nat} (hn : numberFits n = true) (imm : BitVec 16) :
    wordNumber (op ++ BitVec.ofNat 8 n ++ imm) = n := by
  have h : n < 256 := of_decide_eq_true hn
  have e : (op ++ BitVec.ofNat 8 n ++ imm : BitVec 32).extractLsb' 16 8 = BitVec.ofNat 8 n := by
    ext k hk
    rw [BitVec.getElem_extractLsb', BitVec.getLsbD_append, BitVec.getLsbD_append]
    simp [hk]
  unfold wordNumber
  rw [e, BitVec.toNat_ofNat]
  exact Nat.mod_eq_of_lt h

/-- The small operands of a word put together from its fields (R81). -/
theorem wordImm_append (op n : BitVec 8) (imm : BitVec 16) : wordImm (op ++ n ++ imm) = imm := by
  unfold wordImm
  ext k hk
  rw [BitVec.getElem_extractLsb', BitVec.getLsbD_append]
  simp [hk]

/-- The opcode byte of a word put together from its fields, under a mask (R81). -/
theorem opcodeByte_and (op n : BitVec 8) (imm : BitVec 16) (m : BitVec 32) :
    ((op ++ n ++ imm : BitVec 32) &&& m).extractLsb' 24 8 = op &&& m.extractLsb' 24 8 := by
  ext k hk
  rw [BitVec.getElem_extractLsb', BitVec.getLsbD_and, BitVec.getLsbD_append, BitVec.getLsbD_append]
  have h1 : ¬ 24 + k < 16 := by omega
  have h2 : ¬ 24 + k - 16 < 8 := by omega
  have h3 : 24 + k - 16 - 8 = k := by omega
  simp [hk, h1, h2, h3]

/-- A row whose opcode byte differs does not admit a word put together from its fields (R88). -/
theorem not_admits {op n : BitVec 8} {imm : BitVec 16} {r : OpcodeRow}
    (h : op &&& r.mask.extractLsb' 24 8 ≠ r.pattern.extractLsb' 24 8) : r.admits (op ++ n ++ imm) = false := by
  rw [OpcodeRow.admits, beq_eq_false_iff_ne]
  intro e
  exact h (by rw [← e, opcodeByte_and])

/-- The row at place `k` of the map is selected when no row before it has the opcode byte and each field of the word is right
under its part of the row's mask (R88). -/
theorem select_at (k : Nat) {op n mOp mN : BitVec 8} {imm mImm : BitVec 16} {r : OpcodeRow}
    (hr : opcodeRows = opcodeRows.take k ++ r :: opcodeRows.drop (k + 1))
    (hk : ∀ x ∈ opcodeRows.take k, op &&& x.mask.extractLsb' 24 8 ≠ x.pattern.extractLsb' 24 8)
    (hm : r.mask = mOp ++ mN ++ mImm) (h : (op &&& mOp) ++ (n &&& mN) ++ (imm &&& mImm) = r.pattern) :
    selectOpcode (op ++ n ++ imm) = some r.opcode := by
  have ha : r.admits (op ++ n ++ imm) = true := by
    rw [OpcodeRow.admits, beq_iff_eq, hm, BitVec.and_append, BitVec.and_append, h]
  have hn : (opcodeRows.take k).find? (fun x => x.admits (op ++ n ++ imm)) = none :=
    List.find?_eq_none.2 fun x hx => by rw [not_admits (hk x hx)]; exact Bool.false_ne_true
  rw [selectOpcode, hr, List.find?_append, hn, Option.none_or, List.find?_cons, ha]

/-- The rows with an operand bit or two select themselves, whatever the number and the operand (R88). -/
theorem select_edgeAb (n : BitVec 8) (c : BitVec 2) : selectOpcode (0x01#8 ++ n ++ (0#14 ++ c)) = some .edgeAb :=
  select_at 0 (mOp := 0xFF#8) (mN := 0#8) (mImm := 0xFFFC#16) rfl (by decide) rfl
    (by rw [BitVec.and_zero]; revert c; decide)

theorem select_wp (n : BitVec 8) (b : BitVec 1) : selectOpcode (0x02#8 ++ n ++ (0#15 ++ b)) = some .wp :=
  select_at 1 (mOp := 0xFF#8) (mN := 0#8) (mImm := 0xFFFE#16) rfl (by decide) rfl
    (by rw [BitVec.and_zero]; revert b; decide)

theorem select_edgeBtn (n : BitVec 8) (b : BitVec 1) : selectOpcode (0x03#8 ++ n ++ (0#15 ++ b)) = some .edgeBtn :=
  select_at 2 (mOp := 0xFF#8) (mN := 0#8) (mImm := 0xFFFE#16) rfl (by decide) rfl
    (by rw [BitVec.and_zero]; revert b; decide)

theorem select_pub (b : BitVec 1) : selectOpcode (0x09#8 ++ BitVec.ofNat 8 0 ++ (0#15 ++ b)) = some .pub :=
  select_at 4 (mOp := 0xFF#8) (mN := 0xFF#8) (mImm := 0xFFFE#16) rfl (by decide) rfl (by revert b; decide)

theorem select_init (n : BitVec 8) (d c b a : BitVec 1) :
    selectOpcode (0x10#8 ++ n ++ (0#12 ++ d ++ c ++ b ++ a)) = some .init :=
  select_at 5 (mOp := 0xFF#8) (mN := 0#8) (mImm := 0xFFF0#16) rfl (by decide) rfl
    (by rw [BitVec.and_zero]; revert d c b a; decide)

/-- The rows without a small operand select themselves, whatever the number (R88). -/
theorem select_plain (n : BitVec 8) :
    selectOpcode (0x11#8 ++ n ++ 0#16) = some .deinit ∧ selectOpcode (0x12#8 ++ n ++ 0#16) = some .set ∧
      selectOpcode (0x13#8 ++ n ++ 0#16) = some .get ∧ selectOpcode (0x14#8 ++ n ++ 0#16) = some .reset ∧
      selectOpcode (0x15#8 ++ n ++ 0#16) = some .reinit :=
  ⟨select_at 6 (mOp := 0xFF#8) (mN := 0#8) (mImm := 0xFFFF#16) rfl (by decide) rfl (by rw [BitVec.and_zero]; rfl),
    select_at 7 (mOp := 0xFF#8) (mN := 0#8) (mImm := 0xFFFF#16) rfl (by decide) rfl (by rw [BitVec.and_zero]; rfl),
    select_at 8 (mOp := 0xFF#8) (mN := 0#8) (mImm := 0xFFFF#16) rfl (by decide) rfl (by rw [BitVec.and_zero]; rfl),
    select_at 9 (mOp := 0xFF#8) (mN := 0#8) (mImm := 0xFFFF#16) rfl (by decide) rfl (by rw [BitVec.and_zero]; rfl),
    select_at 10 (mOp := 0xFF#8) (mN := 0#8) (mImm := 0xFFFF#16) rfl (by decide) rfl (by rw [BitVec.and_zero]; rfl)⟩

theorem edgeAb (n : Nat) (code : BitVec 2) : Statement (.edgeAb n code) := fun h =>
  ⟨select_edgeAb _ _, wordNumber_append _ h _, wordImm_append _ _ _, rfl⟩

theorem wp (n : Nat) (w : WatchPoint) : Statement (.wp n w) := fun h =>
  ⟨select_wp _ _, wordNumber_append _ h _, wordImm_append _ _ _, rfl⟩

theorem edgeBtn (n : Nat) (lvl : Level) (now : Nat) : Statement (.edgeBtn n lvl now) := fun h =>
  ⟨select_edgeBtn _ _, wordNumber_append _ h _, wordImm_append _ _ _, rfl⟩

theorem deq : Statement .deq := fun _ => by decide +kernel

theorem pub (answer : Answer) (free : Nat) : Statement (.pub answer free) := fun _ => by
  refine ⟨?_, wordNumber_append _ (n := 0) (by decide) _, wordImm_append _ _ _, rfl⟩
  exact select_pub answer.bit

theorem init (cfg : InitCfg) (plat : Answer) (lvl0 : Level) (now : Nat) : Statement (.init cfg plat lvl0 now) :=
  fun h => ⟨select_init _ _ _ _ _, wordNumber_append _ h _, wordImm_append _ _ _, rfl⟩

theorem deinit (n : Nat) : Statement (.deinit n) := fun h =>
  ⟨(select_plain _).1, wordNumber_append _ h _, wordImm_append _ _ _, rfl⟩

theorem set (n : Nat) (p : Num) : Statement (.set n p) := fun h =>
  ⟨(select_plain _).2.1, wordNumber_append _ h _, wordImm_append _ _ _, rfl⟩

theorem get (n : Nat) : Statement (.get n) := fun h =>
  ⟨(select_plain _).2.2.1, wordNumber_append _ h _, wordImm_append _ _ _, rfl⟩

theorem reset (n : Nat) : Statement (.reset n) := fun h =>
  ⟨(select_plain _).2.2.2.1, wordNumber_append _ h _, wordImm_append _ _ _, rfl⟩

theorem reinit (n : Nat) (min2 max2 step2 : Num) : Statement (.reinit n min2 max2 step2) := fun h =>
  ⟨(select_plain _).2.2.2.2, wordNumber_append _ h _, wordImm_append _ _ _, rfl⟩

theorem getStats : Statement .getStats := fun _ => by decide +kernel

theorem resetStats : Statement .resetStats := fun _ => by decide +kernel

end Sys2Proof.Laws.Encoding
end

