-- ==== Sys2Proof/Laws/Steps.lean ====
section
/-! SUPPORT. Everything an operation that answers a next state can have done, said once: `exec_move`. Invariants and frames
of the whole machine are read off the cases of `Move`. -/

namespace Sys2Proof.Machine

/-- What becomes of the event an operation offers to the queue (R171): none is offered and the queue and the drop count stay,
or one is appended or counted. -/
abbrev Offered (offer : Option Event) (s t : State) : Prop :=
  match offer with
  | none => t.fifo = s.fifo ∧ t.qDrop = s.qDrop
  | some ev => ∃ f, s.fifo = some f ∧ Enqueued ev f s t

/-- What an interrupt-side operation makes of its encoder's register set (R104, R122, R136). -/
inductive Wrote (s : State) (r : Inst) : Instr → Inst → Prop where
  | edgeAb {n : Nat} {code : BitVec 2} {row : Fin 6} (ha : r.strategy = .a) (hrow : rowOf r.st = some row) :
      Wrote s r (.edgeAb n code)
        ((r.setSt (zext4 (edgeEntry s.config row code).next)).setPos (stepTarget r (edgeEntry s.config row code).dir))
  | wp {n : Nat} {w : WatchPoint} (hb : r.strategy = .b) :
      Wrote s r (.wp n w) ((r.setCnt 0).setPos (stepTarget r (wpDir s.config.wpPolarity r.cnt w)))
  | accepted {n : Nat} {lvl : Level} {now : Nat} (hb : r.hasButton s.config = true) (h : Accepted r lvl now) :
      Wrote s r (.edgeBtn n lvl now) ((r.setBtnLevel lvl).setBtnTime now)
  | rejected {n : Nat} {lvl : Level} {now : Nat} (hb : r.hasButton s.config = true) (h : ¬ Accepted r lvl now) :
      Wrote s r (.edgeBtn n lvl now) (r.setBtnTime now)

/-- What a host command makes of its encoder's register set (R155, R158, R160). -/
inductive Accessed (r : Inst) : Instr → Inst → Prop where
  | set {n : Nat} {p : Num} (h1 : r.min ≤ p) (h2 : p ≤ r.max) : Accessed r (.set n p) (r.setPos p)
  | reset {n : Nat} : Accessed r (.reset n) (r.setPos (mid r.min r.max))
  | reinit {n : Nat} {lo hi d : Num} (h1 : lo < hi) (h2 : 0 < d) :
      Accessed r (.reinit n lo hi d) ((r.setRange lo hi d).setPos (mid lo hi))

/-- Every next state of an operation, by what it did. -/
inductive Move (s : State) : Instr → State → Prop where
  /-- it answered and wrote nothing: an error, or `GET`, or `GET_STATS` (R156, R205, R222) -/
  | answered {i : Instr} {r : Response} (hc : contextOf i = .caller) (hr : r ≠ .silent)
      (ho : r ≠ .result .ok) : Move s i (s.respond r)
  /-- a stimulus of a live encoder (R104, R122, R136) -/
  | stimulus {i : Instr} {t : State} {n : Nat} {r r' : Inst} (hn : i.number = some n) (hr : s.inst? n = some r)
      (hc : contextOf i = .interrupt) (hw : Wrote s r i r') (ht : t.reg = putInst r' s.reg)
      (ho : Offered (s.offered i) s t) (hk : KeepsConsumerSide s t) (hs : t.resp = .silent) : Move s i t
  /-- `DEQ` (R175) -/
  | deq {f : Queue} {ev : Event} {rest : List Event} (hc : s.cons = .wait) (hf : s.fifo = some f) (hq : f.q = ev :: rest) :
      Move s .deq ({ s with fifo := some ⟨f.cap, rest⟩, cons := .hold ev }.respond .silent)
  /-- `PUB` answered `ok` (R177) -/
  | pubOk {free : Nat} {ev : Event} (hc : s.cons = .hold ev) :
      Move s (.pub .ok free)
        ({ s with minFree := lowWater s.minFree free, cons := .wait, bus := s.bus ++ [ev] }.respond .silent)
  /-- `PUB` answered `fail` (R177) -/
  | pubFail {free : Nat} {ev : Event} (hc : s.cons = .hold ev) :
      Move s (.pub .fail free)
        ({ s with minFree := lowWater s.minFree free, cons := .wait, pubFail := s.pubFail + 1 }.respond .silent)
  /-- `INIT` that succeeds (R191) -/
  | init {cfg : InitCfg} {lvl0 : Level} {now : Nat} (h : initInvalid s.config s.reg cfg = false) :
      Move s (.init cfg .ok lvl0 now)
        (((openIfFirst cfg.qcap s).addInst (createInst s.config cfg lvl0 now)).respond (.result .ok))
  /-- `DEINIT` that succeeds (R200) -/
  | deinit {n : Nat} {r : Inst} (hr : s.inst? n = some r) :
      Move s (.deinit n) ((closeIfLast (s.removeInst n)).respond (.result .ok))
  /-- a position command that writes (R155, R158, R160) -/
  | access {i : Instr} {n : Nat} {r r' : Inst} (hn : i.number = some n) (hr : s.inst? n = some r)
      (ha : Accessed r i r') : Move s i ((s.setInst r').respond (.result .ok))
  /-- `RESET_STATS` (R206) -/
  | resetStats : Move s .resetStats ({ s with pubFail := 0, qDrop := 0, minFree := none }.respond .silent)

/-- `enqueue` in the terms of `Offered`. -/
theorem enqueue_offered {ev : Event} {s t : State} (h : enqueue ev s = .next t) :
    Offered (some ev) s t ∧ t.reg = s.reg ∧ KeepsConsumerSide s t ∧ t.resp = s.resp := by
  obtain ⟨f, hf, ⟨hl, rfl⟩ | ⟨hl, rfl⟩⟩ := enqueue_next h
  · exact ⟨⟨f, hf, by simp [Enqueued, hl]⟩, rfl, ⟨rfl, rfl, rfl, rfl, rfl, rfl⟩, rfl⟩
  · exact ⟨⟨f, hf, by simp [Enqueued, Nat.not_lt.2 hl]⟩, rfl, ⟨rfl, rfl, rfl, rfl, rfl, rfl⟩, rfl⟩

/-- `pos_step` in the terms of `Offered`. -/
theorem posStep_offered {i : Inst} {d : Dir} {s t : State} (h : posStep i d s = .next t) :
    Offered (motionOffered i d) s t ∧ t.reg = putInst (i.setPos (stepTarget i d)) s.reg ∧ KeepsConsumerSide s t ∧
      t.resp = s.resp := by
  rcases posStep_next h with ⟨he, rfl⟩ | ⟨he, hq⟩
  · refine ⟨?_, rfl, ⟨rfl, rfl, rfl, rfl, rfl, rfl⟩, rfl⟩
    rw [motionOffered, if_pos he]
    exact ⟨rfl, rfl⟩
  · obtain ⟨ho, hr, hk, hs⟩ := enqueue_offered hq
    refine ⟨?_, hr, hk, hs⟩
    rw [motionOffered, if_neg he]
    exact ho

/-- The event a step offers does not depend on the state register. -/
@[simp] theorem motionOffered_setSt (i : Inst) (v : BitVec 4) (d : Dir) :
    motionOffered (i.setSt v) d = motionOffered i d := by simp [motionOffered]

@[simp] theorem motionOffered_setCnt (i : Inst) (v : Int) (d : Dir) :
    motionOffered (i.setCnt v) d = motionOffered i d := by simp [motionOffered]

/-- `EDGE_AB` (R104). -/
theorem execEdgeAb_move {s t : State} {n : Nat} {code : BitVec 2} (h : execEdgeAb n code s = .next t) :
    Move s (.edgeAb n code) t := by
  unfold execEdgeAb at h
  split at h
  · cases h
  · rename_i r hr
    split at h
    · cases h
    · rename_i ha
      split at h
      · cases h
      · rename_i row hrow
        simp only at h
        split at h
        · rename_i hd
          cases h
          refine .stimulus rfl hr rfl (.edgeAb ha hrow) ?_ ?_ ⟨rfl, rfl, rfl, rfl, rfl, rfl⟩ rfl
          · rw [hd]
            rfl
          · simp only [State.offered, hr, ha, hrow, motionOffered, hd, stepTarget, if_true]
            exact ⟨rfl, rfl⟩
        · obtain ⟨ho, hreg, hk, hs⟩ := posStep_offered h
          refine .stimulus rfl hr rfl (.edgeAb ha hrow) ?_ ?_ hk hs
          · rw [hreg, stepTarget_setSt, State.respond_reg, State.setInst_reg]
            exact putInst_putInst (by rfl) s.reg
          · rw [motionOffered_setSt] at ho
            simp only [State.offered, hr, ha, hrow]
            exact ho

/-- `WP` (R122). -/
theorem execWp_move {s t : State} {n : Nat} {w : WatchPoint} (h : execWp n w s = .next t) : Move s (.wp n w) t := by
  unfold execWp at h
  split at h
  · cases h
  · rename_i r hr
    split at h
    · cases h
    · rename_i hb
      obtain ⟨ho, hreg, hk, hs⟩ := posStep_offered h
      refine .stimulus rfl hr rfl (.wp hb) ?_ ?_ hk hs
      · rw [hreg, stepTarget_setCnt, State.respond_reg, State.setInst_reg]
        exact putInst_putInst (by rfl) s.reg
      · rw [motionOffered_setCnt] at ho
        simp only [State.offered, hr, hb]
        exact ho

/-- `EDGE_BTN` (R136). -/
theorem execEdgeBtn_move {s t : State} {n : Nat} {lvl : Level} {now : Nat} (h : execEdgeBtn n lvl now s = .next t) :
    Move s (.edgeBtn n lvl now) t := by
  unfold execEdgeBtn at h
  split at h
  · cases h
  · rename_i r hr
    split at h
    · rename_i hb
      split at h
      · rename_i hacc
        obtain ⟨ho, hreg, hk, hs⟩ := enqueue_offered h
        refine .stimulus rfl hr rfl (.accepted hb hacc) hreg ?_ hk hs
        simp only [State.offered, hr]
        rw [if_pos ⟨hb, hacc⟩]
        exact ho
      · rename_i hacc
        cases h
        refine .stimulus rfl hr rfl (.rejected hb hacc) rfl ?_ ⟨rfl, rfl, rfl, rfl, rfl, rfl⟩ rfl
        simp only [State.offered, hr, hb, true_and, if_neg hacc]
        exact ⟨rfl, rfl⟩
    · rename_i hb
      cases h

/-- `DEQ` (R175). -/
theorem execDeq_move {s t : State} (h : execDeq s = .next t) : Move s .deq t := by
  unfold execDeq at h
  split at h
  · cases h
  · cases h
  · rename_i hc
    split at h
    · cases h
    · rename_i f hf
      split at h
      · rename_i hq
        cases h
      · rename_i ev rest hq
        cases h
        exact .deq hc hf hq

/-- `PUB` (R177). -/
theorem execPub_move {s t : State} {answer : Answer} {free : Nat} (h : execPub answer free s = .next t) :
    Move s (.pub answer free) t := by
  unfold execPub at h
  split at h
  · cases h
  · cases h
  · rename_i ev hc
    cases answer with
    | ok =>
      cases h
      exact .pubOk hc
    | fail =>
      cases h
      exact .pubFail hc

/-- Every next state of an operation is one of the cases of `Move`. -/
theorem exec_move {s t : State} {i : Instr} (h : exec i s = .next t) : Move s i t := by
  cases i with
  | edgeAb n code => exact execEdgeAb_move h
  | wp n w => exact execWp_move h
  | edgeBtn n lvl now => exact execEdgeBtn_move h
  | deq => exact execDeq_move h
  | pub answer free => exact execPub_move h
  | init cfg plat lvl0 now =>
    simp only [exec, execInit, raise, finish] at h
    split at h
    · cases h
      exact .answered rfl (by simp) (by simp)
    · rename_i hi
      cases plat with
      | fail =>
        cases h
        exact .answered rfl (by simp) (by simp)
      | ok =>
        cases h
        exact .init (by simpa using hi)
  | deinit n =>
    simp only [exec, execDeinit, raise, finish] at h
    split at h
    · cases h
      exact .answered rfl (by simp) (by simp)
    · rename_i r hr
      cases h
      exact .deinit hr
  | set n p =>
    simp only [exec, execSet, raise, finish] at h
    split at h
    · cases h
      exact .answered rfl (by simp) (by simp)
    · rename_i r hr
      split at h
      · cases h
        exact .answered rfl (by simp) (by simp)
      · rename_i hp
        cases h
        simp only [not_or, not_lt] at hp
        exact .access rfl hr (.set hp.1 hp.2)
  | get n =>
    simp only [exec, execGet, raise, finish] at h
    split at h <;> cases h <;> exact .answered rfl (by simp) (by simp)
  | reset n =>
    simp only [exec, execReset, raise, finish] at h
    split at h
    · cases h
      exact .answered rfl (by simp) (by simp)
    · rename_i r hr
      cases h
      exact .access rfl hr .reset
  | reinit n lo hi d =>
    simp only [exec, execReinit, raise, finish] at h
    split at h
    · cases h
      exact .answered rfl (by simp) (by simp)
    · rename_i r hr
      split at h
      · cases h
        exact .answered rfl (by simp) (by simp)
      · rename_i hp
        cases h
        simp only [not_or, not_le] at hp
        exact .access rfl hr (.reinit hp.1 hp.2)
  | getStats =>
    cases h
    exact .answered rfl (by simp) (by simp)
  | resetStats =>
    cases h
    exact .resetStats

end Sys2Proof.Machine
end

