-- ==== Sys2Proof/Laws/Stream.lean ====
section
/-! SUPPORT. What a step does with the stimulus stream, said once: `step_decoded` unfolds it by one operation, `step_next`
names the one operation whose transition it is. -/

namespace Sys2Proof.Machine

/-- Reading an operation uses up at least its word (R81). -/
theorem decode_shorter {items rest : List Item} {i : Instr} (h : decode items = .ok (i, rest)) :
    rest.length < items.length := by
  unfold decode at h
  split at h
  · cases h
  · split at h
    · rename_i op _
      cases op <;> simp only [decodeOperands, decodeInit] at h
      all_goals try split at h
      all_goals cases h
      all_goals simp <;> omega
    · cases h
  · cases h
  · cases h

/-- A next state comes from the operation, or from what follows a disabled one (R14). -/
theorem unlessDisabled_next {o q : Host.Outcome State Fault Refusal} {t : State} (h : unlessDisabled o q = .next t) :
    o = .next t ∨ o = .refused .disabled ∧ q = .next t := by
  unfold unlessDisabled at h
  split at h
  · exact .inl h
  · cases h
  · split at h
    · exact .inr ⟨by simp [*], h⟩
    · cases h

/-- An operation that is not disabled is the outcome (R14). -/
theorem unlessDisabled_of_ne {o q : Host.Outcome State Fault Refusal} (h : o ≠ .refused .disabled) :
    unlessDisabled o q = o := by
  unfold unlessDisabled
  split
  · rfl
  · rfl
  · rw [if_neg]
    rintro rfl
    exact h rfl

@[simp] theorem unlessDisabled_disabled (q : Host.Outcome State Fault Refusal) :
    unlessDisabled (.refused .disabled) q = q := rfl

/-- Looking at more operations than the stream has items changes nothing. -/
theorem runNext_enough {k : Nat} {s : State} (h : s.stim.length < k) : runNext k s = step s := by
  have key : ∀ (a b : Nat) (s : State), s.stim.length < a → s.stim.length < b → runNext a s = runNext b s := by
    intro a
    induction a with
    | zero => intro b s ha; omega
    | succ a ih =>
      intro b s ha hb
      cases b with
      | zero => omega
      | succ b =>
        simp only [runNext]
        split
        · rename_i i rest hd
          have hl := decode_shorter hd
          rw [ih b (s.advance rest) (by simp; omega) (by simp; omega)]
        · rfl
  exact key _ _ s h (Nat.lt_succ_self _)

/-- A step is the operation the decoder reads or, where that one is disabled, the step from behind it (R14, R70). -/
theorem step_decoded {s : State} {i : Instr} {rest : List Item} (h : decode s.stim = .ok (i, rest)) :
    step s = unlessDisabled (exec i (s.advance rest)) (step (s.advance rest)) := by
  have hl := decode_shorter h
  rw [step, runNext, h]
  exact congrArg (unlessDisabled _) (runNext_enough (s := s.advance rest) hl)

/-- Where the decoder refuses, so does the step (R91). -/
theorem step_refused {s : State} {why : Reject} (h : decode s.stim = .error why) :
    step s = .refused (.undecodable why) := by
  rw [step, runNext, h]

/-- A step that answers a next state is one transition of one operation of the stream (R66, R70). -/
theorem step_next {s t : State} (h : step s = .next t) : ∃ i rest, exec i (s.advance rest) = .next t := by
  have key : ∀ (k : Nat) (s : State), runNext k s = .next t → ∃ i rest, exec i (s.advance rest) = .next t := by
    intro k
    induction k with
    | zero => intro s h; cases h
    | succ k ih =>
      intro s h
      simp only [runNext] at h
      split at h
      · rename_i i rest _
        rcases unlessDisabled_next h with h | ⟨-, h⟩
        · exact ⟨i, rest, h⟩
        · obtain ⟨j, rest', h⟩ := ih _ h
          exact ⟨j, rest', h⟩
      · cases h
  exact key _ _ h

end Sys2Proof.Machine
end

