-- ==== Sys2Proof/Machine/Text.lean ====
section
/-! DEFINITION. The written syntax of stimulus sequences (30_encoding.md rules R92, R93): one operation a line, mnemonic
first, operands separated by commas, a result after an arrow. Nothing in the machine reads it (DESIGN CHOICE, log 16). -/

namespace Sys2Proof.Machine

/-- A `Num` as a decimal integer or a fraction (R93). -/
def numText (q : Num) : String :=
  if q.den = 1 then toString q.num else toString q.num ++ "/" ++ toString q.den

/-- A level, or any one bit, as `0` or `1`. -/
def bitText (b : BitVec 1) : String := if b = 0#1 then "0" else "1"

/-- An environment answer. -/
def answerText : Answer → String
  | .ok => "ok"
  | .fail => "fail"

/-- A strategy. -/
def strategyText : Strategy → String
  | .a => "A"
  | .b => "B"

/-- A watch-point. -/
def watchPointText : WatchPoint → String
  | .plus => "PLUS"
  | .minus => "MINUS"

/-- A button pin, the sentinel by its name. -/
def buttonPinText (c : Config) (p : Nat) : String := if p = c.pinNone then "PIN_NONE" else toString p

/-- The operands of `INIT`'s configuration record, in the order R93 writes them. -/
def cfgText (c : Config) (k : InitCfg) : String :=
  "num=" ++ toString k.num ++ ", strategy=" ++ strategyText k.strategy ++ ", prio=" ++ toString k.prio
    ++ ", stack=" ++ toString k.stack ++ ", qcap=" ++ toString k.qcap ++ ", pin_a=" ++ toString k.pinA
    ++ ", pin_b=" ++ toString k.pinB ++ ", pin_btn=" ++ buttonPinText c k.pinBtn
    ++ ", pullup=" ++ (if k.pullup then "1" else "0") ++ ", deb=" ++ toString k.deb
    ++ ", min=" ++ numText k.min ++ ", max=" ++ numText k.max ++ ", step=" ++ numText k.step

/-- One operation as a line of a stimulus sequence (R93). -/
def instrText (c : Config) : Instr → String
  | .edgeAb n code => "EDGE_AB " ++ toString n ++ ", code=" ++ toString code.toNat
  | .wp n w => "WP " ++ toString n ++ ", w=" ++ watchPointText w
  | .edgeBtn n lvl now => "EDGE_BTN " ++ toString n ++ ", lvl=" ++ bitText lvl ++ ", now=" ++ toString now
  | .deq => "DEQ"
  | .pub answer free => "PUB pub=" ++ answerText answer ++ ", free=" ++ toString free
  | .init cfg plat lvl0 now =>
    "INIT " ++ cfgText c cfg ++ ", plat=" ++ answerText plat ++ ", lvl0=" ++ bitText lvl0 ++ ", now=" ++ toString now
  | .deinit n => "DEINIT " ++ toString n
  | .set n p => "SET " ++ toString n ++ ", p=" ++ numText p
  | .get n => "GET " ++ toString n
  | .reset n => "RESET " ++ toString n
  | .reinit n min2 max2 step2 =>
    "REINIT " ++ toString n ++ ", min2=" ++ numText min2 ++ ", max2=" ++ numText max2 ++ ", step2=" ++ numText step2
  | .getStats => "GET_STATS"
  | .resetStats => "RESET_STATS"

/-- A result by its name (R220). -/
def resultText : Result → String
  | .ok => "Ok"
  | .invalidArgument => "InvalidArgument"
  | .notInitialized => "NotInitialized"
  | .resourceExhausted => "ResourceExhausted"
  | .transient => "Transient"

/-- The free-stack statistic as R93 writes it. -/
def minFreeText : Option Nat → String
  | none => "none"
  | some k => "some " ++ toString k

/-- The three statistics between curly brackets, the characters 123 and 125 (R93). -/
def statisticsText (publishFailures queueDrops : Nat) (minFreeStack : Option Nat) : String :=
  String.singleton (Char.ofNat 123) ++ "publish_failures=" ++ toString publishFailures ++ ", queue_drops="
    ++ toString queueDrops ++ ", min_free_stack=" ++ minFreeText minFreeStack ++ String.singleton (Char.ofNat 125)

/-- What follows the operation on its line: a result after an arrow, or nothing (R93). -/
def responseText : Response → String
  | .silent => ""
  | .result r => " -> " ++ resultText r
  | .position p => " -> Ok, " ++ numText p
  | .statistics f d m => " -> " ++ statisticsText f d m

end Sys2Proof.Machine
end

