-- ==== Sys2Proof/Tests/Slice0.lean ====
section
/-! SUPPORT. Tests. Expected values are those of 95_test_vectors.md (named V-..., P1 to P4), or worked by hand from the rules.
The witnesses meet the hypotheses of the statements of Certificates/Slice0/Obligations.lean, one per statement that has any. -/

namespace Sys2Proof.Tests

open Sys2Proof Sys2Proof.Machine

-- One theorem at a time: side by side, the kernel evaluations below outnumber the threads Lean can start.
set_option Elab.async false

/-! ## Helpers -/

/-- The test instantiation `T0` (95_test_vectors.md, conventions). -/
def t0 : Config where
  maxInstances := 4
  pinCount := 40
  pinNone := 255
  stackMin := 2048
  publishWait := 0
  tick := 0
  tt := ttDefault
  codeOrder := .ba
  wpPolarity := .plusIsCw

/-- The default operands of an `INIT` line (95_test_vectors.md, conventions). -/
def cfg1 : InitCfg where
  num := 1
  strategy := .a
  prio := 1
  stack := 2048
  qcap := 4
  pinA := 0
  pinB := 1
  pinBtn := 255
  pullup := true
  deb := 0
  min := -100
  max := 100
  step := 1

/-- The register set of encoder 1 with the default operands: Strategy A, no button. -/
def encA : Inst where
  num := 1
  strategy := .a
  pos := 0
  min := -100
  max := 100
  step := 1
  pinA := 0
  pinB := 1
  pinBtn := 255
  pullup := true
  st := 0
  cnt := 0
  deb := 0
  btnLevel := 0
  btnTime := 0
  prio := 1
  stack := 2048
  qcap := 4

/-- The same with Strategy B. -/
def encB : Inst := { encA with strategy := .b }

/-- The start of the vectors of section 2.4: a button, `deb=50`, `btn_level=1`, `btn_time=1000`. -/
def encBtn : Inst := { encA with pinBtn := 4, deb := 50, btnLevel := 1, btnTime := 1000 }

/-- `T0` with one live encoder, a queue of four slots holding `q`, and the consumer waiting. -/
def bench (i : Inst) (q : List Event) : State :=
  { State.powerOn t0 with reg := [i], fifo := some ⟨4, q⟩, cons := .wait }

/-- The same with encoder 2 live beside it. -/
def pair (i : Inst) (q : List Event) : State := { bench i q with reg := [i, { encB with num := 2 }] }

/-- A full queue. -/
def fullQueue : List Event := [.motion 1 1, .motion 1 2, .motion 1 3, .motion 1 4]

/-- The next state of an outcome, if it is one. -/
def after (o : Host.Outcome State Fault Refusal) : Option State :=
  match o with
  | .next t => some t
  | .fault _ => none
  | .refused _ => none

theorem next_of_after {o : Host.Outcome State Fault Refusal} {t : State} (h : after o = some t) : o = .next t := by
  cases o with
  | next s => exact congrArg Host.Outcome.next (Option.some.inj h)
  | fault r => cases h
  | refused r => cases h

/-- A next state that passes a test is there when the test says so. -/
theorem next_with {o : Host.Outcome State Fault Refusal} {p : State → Bool} (h : (after o).any p = true) :
    ∃ t, o = .next t ∧ p t = true := by
  cases o with
  | next s => exact ⟨s, rfl, h⟩
  | fault r => cases h
  | refused r => cases h

/-! ## WellFormed: each check refuses a term -/

theorem test_wellFormed_edgeAb : (Instr.edgeAb 256 0#2).wellFormed = false := by decide
theorem test_wellFormed_wp : (Instr.wp 256 .plus).wellFormed = false := by decide
theorem test_wellFormed_edgeBtn : (Instr.edgeBtn 256 0#1 0).wellFormed = false := by decide
theorem test_wellFormed_init : (Instr.init { cfg1 with num := 256 } .ok 0#1 0).wellFormed = false := by decide +kernel
theorem test_wellFormed_deinit : (Instr.deinit 256).wellFormed = false := by decide
theorem test_wellFormed_set : (Instr.set 256 0).wellFormed = false := by decide +kernel
theorem test_wellFormed_get : (Instr.get 256).wellFormed = false := by decide
theorem test_wellFormed_reset : (Instr.reset 256).wellFormed = false := by decide
theorem test_wellFormed_reinit : (Instr.reinit 256 0 1 1).wellFormed = false := by decide +kernel

/-! ## Decoding: words written out in 95_test_vectors.md -/

/-- V-X1, V-X2, V-X3. -/
theorem test_decode_edgeAb :
    decode [.word 0x01010002#32] = .ok (.edgeAb 1 2#2, []) ∧ decode [.word 0x01FF0003#32] = .ok (.edgeAb 255 3#2, []) ∧
      decode [.word 0x01010004#32] = .error (.illegalWord 0x01010004#32) := by decide +kernel

/-- V-X4 and P2 line 3. -/
theorem test_decode_wp :
    decode [.word 0x02020001#32] = .ok (.wp 2 .minus, []) ∧ decode [.word 0x02010000#32] = .ok (.wp 1 .plus, []) := by
  decide +kernel

/-- V-X5 and P2 line 5. -/
theorem test_decode_edgeBtn :
    decode [.word 0x03010001#32, .natural 1200] = .ok (.edgeBtn 1 1#1 1200, []) ∧
      decode [.word 0x03010000#32, .natural 1100] = .ok (.edgeBtn 1 0#1 1100, []) := by decide +kernel

/-- V-X6, V-X7. -/
theorem test_decode_deq :
    decode [.word 0x08000000#32] = .ok (.deq, []) ∧
      decode [.word 0x08010000#32] = .error (.illegalWord 0x08010000#32) := by decide +kernel

/-- V-X8 and P1 line 11. -/
theorem test_decode_pub :
    decode [.word 0x09000001#32, .natural 580] = .ok (.pub .fail 580, []) ∧
      decode [.word 0x09000000#32, .natural 600] = .ok (.pub .ok 600, []) := by decide +kernel

/-- The configuration of P2 line 1. -/
def cfgP2 : InitCfg where
  num := 1
  strategy := .b
  prio := 1
  stack := 2048
  qcap := 4
  pinA := 2
  pinB := 3
  pinBtn := 4
  pullup := false
  deb := 50
  min := -1
  max := 1
  step := 1 / 2

/-- P2 line 1: `imm = 0b1001`, strategy B, no pull-up, `plat=ok`, `lvl0=1`. -/
theorem test_decode_init :
    decode [.word 0x10010009#32, .natural 1, .natural 2048, .natural 4, .natural 2, .natural 3, .natural 4, .natural 50,
        .num (-1), .num 1, .num (1 / 2), .natural 1000] =
      .ok (.init cfgP2 .ok 1#1 1000, []) := by decide +kernel

/-- P3 line 4: `imm = 0b0111`, strategy B, pull-up, `plat=fail`, `lvl0=0`. -/
theorem test_decode_init_fail :
    decode [.word 0x10010007#32, .natural 1, .natural 2048, .natural 16, .natural 0, .natural 1, .natural 255, .natural 0,
        .num (-100), .num 100, .num 1, .natural 0] =
      .ok (.init { cfg1 with strategy := .b, qcap := 16 } .fail 0#1 0, []) := by decide +kernel

/-- P2 line 14. -/
theorem test_decode_deinit : decode [.word 0x11010000#32] = .ok (.deinit 1, []) := by decide +kernel

/-- P3 line 19. -/
theorem test_decode_set : decode [.word 0x12010000#32, .num 150] = .ok (.set 1 150, []) := by decide +kernel

/-- P1 line 15 and V-X12. -/
theorem test_decode_get :
    decode [.word 0x13010000#32] = .ok (.get 1, []) ∧ decode [.word 0x13000000#32] = .ok (.get 0, []) := by decide +kernel

/-- P3 line 27. -/
theorem test_decode_reset : decode [.word 0x14010000#32] = .ok (.reset 1, []) := by decide +kernel

/-- P3 line 22. -/
theorem test_decode_reinit :
    decode [.word 0x15010000#32, .num 0, .num 7, .num 3] = .ok (.reinit 1 0 7 3, []) := by decide +kernel

/-- P1 line 16. -/
theorem test_decode_getStats : decode [.word 0x16000000#32] = .ok (.getStats, []) := by decide +kernel

/-- V-X13. -/
theorem test_decode_resetStats : decode [.word 0x17000000#32] = .ok (.resetStats, []) := by decide +kernel

/-- V-X11: unassigned opcodes. V-X10: a reserved bit. -/
theorem test_decode_illegal :
    [0x04000000#32, 0x00000000#32, 0x18000000#32, 0xFF000000#32, 0x10010010#32].all
      (fun w => decode [.word w] == .error (.illegalWord w)) = true := by decide +kernel

/-- R81: an operand value is missing, or of another type, or stands where a word must (log 11). -/
theorem test_decode_operands :
    decode [.word 0x12010000#32] = .error (.wrongOperands .set) ∧
      decode [.word 0x12010000#32, .natural 150] = .error (.wrongOperands .set) ∧
      decode [.natural 150] = .error .notAWord ∧ decode [] = .error .noStimulus := by decide +kernel

/-- The words of the table, operand values zero: each decodes. -/
theorem test_table_words_decode :
    opcodeRows.map (fun r => (decodeTableWord 32 r.pattern.toNat).map Instr.opcode) =
      opcodeRows.map (fun r => some r.opcode) := by decide +kernel

/-- Each host command runs as the first operation after reset. The stimuli and consumer steps are disabled there (R14, R54): a
step passes them over and finds no other. -/
theorem test_table_words_run :
    (∀ r ∈ opcodeRows.drop 5, (after (step (State.reset.withFetchWord 32 r.pattern.toNat))).isSome = true) ∧
      ∀ r ∈ opcodeRows.take 5, (after (step (State.reset.withFetchWord 32 r.pattern.toNat))).isSome = false := by
  decide +kernel

/-- P1 lines 14 and 15: a `DEQ` on an empty queue goes by without a step, and the step is the `GET` behind it. -/
theorem test_step_passes_disabled :
    after (step { bench { encA with pos := 10 } [] with stim := encode .deq ++ encode (.get 1) }) =
      some { bench { encA with pos := 10 } [] with resp := .position 10 } := by decide +kernel

/-! ## One operation, one step -/

/-- What most vectors show: the state nibble and the position of encoder 1, the queue, the drop count. -/
def seen (o : Host.Outcome State Fault Refusal) : Option (Option (BitVec 4 × Num) × List Event × Nat) :=
  (after o).map (fun t => ((t.inst? 1).map (fun i => (i.st, i.pos)), t.queued, t.qDrop))

/-- The button's registers, the queue, the drop count. -/
def seenBtn (o : Host.Outcome State Fault Refusal) : Option (Option (Level × Nat) × List Event × Nat) :=
  (after o).map (fun t => ((t.inst? 1).map (fun i => (i.btnLevel, i.btnTime)), t.queued, t.qDrop))

/-- V-A2: entry (2,0) is (3, CW). -/
theorem test_edgeAb_flag :
    seen (exec (.edgeAb 1 0#2) (bench { encA with st := 2 } [])) = some (some (3#4, 1), [.motion 1 1], 0) := by
  decide +kernel

/-- V-A21: a full queue; the step stands, the event is lost. -/
theorem test_edgeAb_full :
    seen (exec (.edgeAb 1 0#2) (bench { encA with st := 2 } fullQueue)) = some (some (3#4, 1), fullQueue, 1) := by
  decide +kernel

/-- V-P4: a step shortened by the clamp is still an event. -/
theorem test_wp_clamps :
    seen (exec (.wp 1 .plus) (bench { encB with step := 3, pos := 99 } [])) =
      some (some (0#4, 100), [.motion 1 100], 0) := by decide +kernel

/-- V-W9: the other polarity. -/
theorem test_wp_polarity :
    seen (exec (.wp 1 .plus) { bench encB [] with config := { t0 with wpPolarity := .plusIsCcw } }) =
      some (some (0#4, -1), [.motion 1 (-1)], 0) := by decide +kernel

/-- V-B2 and V-B3: the elapsed time equals the threshold, and falls one short of it. -/
theorem test_edgeBtn_threshold :
    seenBtn (exec (.edgeBtn 1 0#1 1050) (bench encBtn [])) = some (some (0#1, 1050), [.button 1 0#1], 0) ∧
      seenBtn (exec (.edgeBtn 1 0#1 1049) (bench encBtn [])) = some (some (1#1, 1049), [], 0) := by decide +kernel

/-- V-B4 and V-B11: the same level again; a timestamp that went back. -/
theorem test_edgeBtn_rejects :
    seenBtn (exec (.edgeBtn 1 1#1 1200) (bench encBtn [])) = some (some (1#1, 1200), [], 0) ∧
      seenBtn (exec (.edgeBtn 1 0#1 900) (bench encBtn [])) = some (some (1#1, 900), [], 0) := by decide +kernel

/-- V-D1: the head first. -/
theorem test_deq_head :
    (after (exec .deq (bench encA [.motion 1 1, .button 1 0#1]))).map (fun t => (t.queued, t.cons)) =
      some ([.button 1 0#1], .hold (.motion 1 1)) := by decide +kernel

/-- V-D3: disabled while an event is held. -/
theorem test_deq_disabled : exec .deq { bench encA [.motion 1 2] with cons := .hold (.motion 1 1) } = .refused .disabled := rfl

/-- What the vectors of `PUB` show. -/
def seenPub (o : Host.Outcome State Fault Refusal) : Option (List Event × Nat × Option Nat × Consumer) :=
  (after o).map (fun t => (t.bus, t.pubFail, t.minFree, t.cons))

/-- V-U2: a failed publish. -/
theorem test_pub_fail :
    seenPub (exec (.pub .fail 480) { bench encA [] with cons := .hold (.button 1 0#1), minFree := some 512 }) =
      some ([], 1, some 480, .wait) := by decide +kernel

/-- V-U3: the running minimum. -/
theorem test_pub_minimum :
    seenPub (exec (.pub .ok 600) { bench encA [] with cons := .hold (.motion 1 1), minFree := some 480 }) =
      some ([.motion 1 1], 0, some 480, .wait) := by decide +kernel

/-- V-I2: the exact midpoint, and what comes into being. -/
theorem test_init_first :
    (after (exec (.init { cfg1 with min := 0, max := 3, step := 2 } .ok 0#1 0) (State.powerOn t0))).map
        (fun t => ((t.inst? 1).map Inst.pos, t.fifo, t.cons, t.resp)) =
      some (some (3 / 2), some ⟨4, []⟩, .wait, .result .ok) := by decide +kernel

/-- V-I3 to V-I9, V-I12, V-I13, V-I15, V-I17: each check, also where the platform would fail. -/
theorem test_init_checks :
    ∀ k ∈ [{ cfg1 with prio := 0 }, { cfg1 with stack := 2047 }, { cfg1 with qcap := 0 }, { cfg1 with pinA := 40 },
        { cfg1 with pinB := 40 }, { cfg1 with pinA := 3, pinB := 3 }, { cfg1 with pinBtn := 40 },
        { cfg1 with min := 1, max := 1 }, { cfg1 with step := 0 }, { cfg1 with step := -1 }, { cfg1 with num := 0 }],
      after (exec (.init k .fail 0#1 0) (State.powerOn t0)) =
        some { State.powerOn t0 with resp := .result .invalidArgument } := by decide +kernel

/-- V-E1: the queue keeps the events of an encoder that is gone. -/
theorem test_deinit_one :
    (after (exec (.deinit 1) (pair encA [.motion 1 3]))).map (fun t => (t.numbers, t.queued, t.resp)) =
      some ([2], [.motion 1 3], .result .ok) := by decide +kernel

/-- V-E2, V-E4: the last one takes the queue and the held event with it. -/
theorem test_deinit_last :
    after (exec (.deinit 1) { bench encA [.motion 1 3] with cons := .hold (.motion 1 2), qDrop := 3 }) =
      some { State.powerOn t0 with qDrop := 3, resp := .result .ok } := by decide +kernel

/-- The position of encoder 1 and what was returned. -/
def seenPos (o : Host.Outcome State Fault Refusal) : Option (Option Num × Response) :=
  (after o).map (fun t => ((t.inst? 1).map Inst.pos, t.resp))

/-- V-S1, V-S3, V-S4: outside, and on the bounds. -/
theorem test_set_bounds :
    seenPos (exec (.set 1 150) (bench { encA with pos := 10 } [])) = some (some 10, .result .invalidArgument) ∧
      seenPos (exec (.set 1 100) (bench { encA with pos := 10 } [])) = some (some 100, .result .ok) ∧
      seenPos (exec (.set 1 (-100)) (bench { encA with pos := 10 } [])) = some (some (-100), .result .ok) := by
  decide +kernel

/-- V-S7: wrong in both ways; liveness first. -/
theorem test_set_liveness :
    seenPos (exec (.set 2 1000) (bench { encA with pos := 10 } [])) = some (some 10, .result .notInitialized) := by
  decide +kernel

/-- V-G1, V-G3. -/
theorem test_get :
    seenPos (exec (.get 1) (bench { encA with pos := 10 } [])) = some (some 10, .position 10) ∧
      seenPos (exec (.get 0) (bench { encA with pos := 10 } [])) = some (some 10, .result .notInitialized) := by
  decide +kernel

/-- V-R2. -/
theorem test_reset_midpoint :
    seenPos (exec (.reset 1) (bench { encA with min := 0, max := 3, pos := 3 } [])) = some (some (3 / 2), .result .ok) := by
  decide +kernel

/-- V-N8: the state nibble and the stored level stay. -/
theorem test_reinit :
    (after (exec (.reinit 1 0 7 3) (bench { encA with st := 2, btnLevel := 1 } []))).map (fun t => (t.inst? 1, t.resp)) =
      some (some { encA with st := 2, btnLevel := 1, min := 0, max := 7, step := 3, pos := 7 / 2 }, .result .ok) := by
  decide +kernel

/-- V-N2, V-N4. -/
theorem test_reinit_rejects :
    seenPos (exec (.reinit 1 5 5 1) (bench { encA with pos := 10 } [])) = some (some 10, .result .invalidArgument) ∧
      seenPos (exec (.reinit 1 0 10 0) (bench { encA with pos := 10 } [])) = some (some 10, .result .invalidArgument) := by
  decide +kernel

/-- V-T2. -/
theorem test_getStats :
    after (exec .getStats { bench encA [] with pubFail := 1, qDrop := 2, minFree := some 480 }) =
      some { bench encA [] with
        pubFail := 1, qDrop := 2, minFree := some 480, resp := .statistics 1 2 (some 480) } := by decide +kernel

/-- V-T3. -/
theorem test_resetStats :
    after (exec .resetStats { bench encA [.motion 1 1] with pubFail := 1, qDrop := 2, minFree := some 480 }) =
      some (bench encA [.motion 1 1]) := by decide +kernel

/-- P2 line 5 and P1 line 16 as R93 writes them. -/
theorem test_text :
    instrText t0 (.edgeBtn 1 0#1 1100) = "EDGE_BTN 1, lvl=0, now=1100" ∧
      instrText t0 (.reinit 1 0 7 (1 / 2)) = "REINIT 1, min2=0, max2=7, step2=1/2" ∧
      responseText (.position 10) = " -> Ok, 10" := by decide +kernel

/-! ## Witnesses: the hypotheses of each statement can be met -/

/-- Both ends of the number field. -/
theorem witness_DecodeInvertsEncode :
    (Instr.init { cfg1 with num := 255 } .fail 1#1 7).wellFormed = true ∧ (Instr.edgeAb 0 3#2).wellFormed = true := by
  decide +kernel

theorem witness_DecodedItemsReencode :
    decode [.word 0x12FF0000#32, .num (1 / 3), .word 0x08000000#32] =
      .ok (.set 255 (1 / 3), [.word 0x08000000#32]) := by decide +kernel

theorem witness_OpcodeRowsDisjoint :
    ∃ r ∈ opcodeRows, ∃ r' ∈ opcodeRows, 0x01010002#32 &&& r.mask = r.pattern ∧ 0x01010002#32 &&& r'.mask = r'.pattern := by
  decide +kernel

/-- V-X3: one reserved bit away from a legal word. -/
theorem witness_UnmatchedWordRefused :
    ({ State.powerOn t0 with stim := [.word 0x01010004#32] }).stim = .word 0x01010004#32 :: [] ∧
      ∀ r ∈ opcodeRows, 0x01010004#32 &&& r.mask ≠ r.pattern := by decide +kernel

/-- The decoder reads an enabled operation; it reads a disabled one; it refuses. -/
theorem witness_StepRunsDecodedInstruction :
    (decode ({ bench encA [] with stim := encode (.get 1) }).stim = .ok (.get 1, []) ∧
        ∃ t, exec (.get 1) { bench encA [] with stim := [] } = .next t) ∧
      (decode ({ bench encA [] with stim := encode .deq }).stim = .ok (.deq, []) ∧
        exec .deq { bench encA [] with stim := [] } = .refused .disabled) ∧
      decode State.reset.stim = .error .noStimulus :=
  ⟨⟨by decide +kernel, _, rfl⟩, ⟨by decide +kernel, rfl⟩, by decide +kernel⟩

/-- Both clauses: `GET` is enabled, `DEQ` on an empty queue is not. -/
theorem witness_StepRunsEncodedOperation :
    (Instr.get 1).wellFormed = true ∧ (∃ t, exec (.get 1) { bench encA [] with stim := encode .deq } = .next t) ∧
      Instr.deq.wellFormed = true ∧ exec .deq { bench encA [] with stim := encode .deq } = .refused .disabled :=
  ⟨by decide, ⟨_, rfl⟩, by decide, rfl⟩

/-- The bench meets the invariants, with a valid encoder and a queue that fits. -/
theorem bench_inv_of {i : Inst} {q : List Event} (hi : i.Valid) (hq : q.length ≤ 4) : (bench i q).Inv :=
  ⟨List.pairwise_singleton _ _, fun j hj => by rw [List.mem_singleton.1 hj]; exact hi,
    show 1 ≤ 4 by decide, by simp [bench], by simp [bench], show 1 ≤ 4 by decide, hq⟩

theorem bench_inv : (bench encA []).Inv ∧ (bench encB []).Inv ∧ (bench encBtn []).Inv ∧ (bench encA fullQueue).Inv :=
  ⟨bench_inv_of (by decide +kernel) (by decide), bench_inv_of (by decide +kernel) (by decide),
    bench_inv_of (by decide +kernel) (by decide), bench_inv_of (by decide +kernel) (by decide)⟩

theorem witness_StepKeepsInvariant :
    ({ bench encA [] with stim := encode (.edgeAb 1 1#2) }).Inv ∧
      ∃ t, step { bench encA [] with stim := encode (.edgeAb 1 1#2) } = .next t :=
  ⟨bench_inv.1, (next_with (p := fun _ => true) (by decide +kernel)).imp fun _ h => h.1⟩

theorem witness_StepKeepsCheckedConfig :
    (∀ i ∈ ({ bench encA [] with stim := encode (.reset 1) }).reg, i.Checked t0) ∧
      ∃ t, step { bench encA [] with stim := encode (.reset 1) } = .next t :=
  ⟨by decide +kernel, (next_with (p := fun _ => true) (by decide +kernel)).imp fun _ h => h.1⟩

/-- Before the first encoder; with a full queue, where a stimulus and a host command are enabled. -/
theorem witness_EveryOperationCompletes :
    (State.powerOn t0).Inv ∧ (bench encA fullQueue).Inv ∧ enabled (.edgeAb 1 0#2) (bench encA fullQueue) = true ∧
      contextOf (.get 1) = .caller := by
  refine ⟨⟨List.Pairwise.nil, ?_, Nat.zero_le _, by simp [State.powerOn], by simp [State.powerOn], trivial⟩,
    bench_inv.2.2.2, by decide +kernel, rfl⟩
  rintro i ⟨⟩

/-- Both clauses: an operation that makes a transition, one that is not enabled, and one on a reserved nibble. -/
theorem witness_OnlyEnabledOperationsTransition :
    (∃ t, exec (.get 1) (bench encA []) = .next t) ∧ enabled (.wp 1 .plus) (bench encA []) = false ∧
      enabled (.edgeAb 1 0#2) (bench { encA with st := 6 } []) = false := ⟨⟨_, rfl⟩, by decide +kernel⟩

theorem witness_InterruptOperationsHaveSources :
    (bench encBtn []).Inv ∧ contextOf (.edgeBtn 1 0#1 1060) = .interrupt ∧ (Instr.edgeBtn 1 0#1 1060).number = some 1 :=
  ⟨bench_inv.2.2.1, by decide⟩

/-- Each clause of `DisabledOperationsPassedOver`: V-A40, V-W7, V-B12, V-D2, V-U4; and V-A41, where no encoder is live. -/
theorem witness_DisabledOperationsPassedOver :
    (∀ i, (bench encB []).inst? 1 = some i → i.strategy = .b) ∧ (∀ i, (bench encA []).inst? 1 = some i → i.strategy = .a) ∧
      (∀ i, (bench encA []).inst? 1 = some i → i.pinBtn = (bench encA []).config.pinNone) ∧
      ¬ ((bench encA []).cons = .wait ∧ (bench encA []).queued ≠ []) ∧ (∀ ev, (bench encA []).cons ≠ .hold ev) ∧
      (∀ i, (State.powerOn t0).inst? 1 = some i → i.strategy = .b) ∧
      Instr.deq.wellFormed = true ∧ exec .deq (bench encA []) = .refused .disabled := by
  refine ⟨?_, ?_, ?_, by decide, ?_, ?_, by decide, rfl⟩
  · rintro i ⟨⟩; rfl
  · rintro i ⟨⟩; rfl
  · rintro i ⟨⟩; rfl
  · rintro ev ⟨⟩
  · rintro i ⟨⟩

/-- Rows 0 and 5, the ends of the range. -/
theorem witness_EdgeAbFollowsTable :
    ((bench encA []).inst? 1 = some encA ∧ encA.strategy = .a ∧ encA.st.toNat = (0 : Fin 6).val ∧
        (bench encA []).fifo = some ⟨4, []⟩ ∧ Table.entry t0.tt 0 (1#1 ++ 0#1) = ⟨1, .none⟩) ∧
      (bench { encA with st := 5 } []).inst? 1 = some { encA with st := 5 } ∧
        ({ encA with st := 5 }).st.toNat = (5 : Fin 6).val ∧ Table.entry t0.tt 5 (1#1 ++ 1#1) = ⟨0, .ccw⟩ := by
  decide +kernel

/-- Both column orders are configurations of `EdgeAbFollowsTable`: V-A1 and the same pins under `CODE_ORDER = AB`. -/
theorem witness_EdgeAbFollowsTable_order :
    seen (exec (.edgeAb 1 (0#1 ++ 1#1)) (bench encA [])) = some (some (2#4, 0), [], 0) ∧
      seen (exec (.edgeAb 1 (0#1 ++ 1#1)) { bench encA [] with config := { t0 with codeOrder := .ab } }) =
        some (some (1#4, 0), [], 0) := by decide +kernel

theorem witness_EdgeAbNoDirectionAbsorbed :
    (bench encA []).inst? 1 = some encA ∧ encA.strategy = .a ∧ encA.st.toNat = (0 : Fin 6).val ∧
      Table.entry (bench encA []).config.tt 0 (columnOf (bench encA []).config.codeOrder 1#2) = ⟨2, .none⟩ := by
  decide +kernel

/-- V-A42: the first reserved value, and the last. -/
theorem witness_EdgeAbReservedNibbleRefused :
    (bench { encA with st := 6 } []).inst? 1 = some { encA with st := 6 } ∧ ({ encA with st := 6 }).strategy = .a ∧
      5 < ({ encA with st := 6 }).st.toNat ∧ (bench { encA with st := 15 } []).inst? 1 = some { encA with st := 15 } ∧
      5 < ({ encA with st := 15 }).st.toNat := by decide +kernel

/-- Each clause on packed bytes: next state 6, direction `11`, a non-zero top. -/
theorem witness_DefaultTableUnpacks :
    5 < ((0x06#8).extractLsb' 0 4).toNat ∧ (0x30#8).extractLsb' 4 2 = 3#2 ∧ (0x40#8).extractLsb' 6 2 ≠ 0#2 := by decide

/-- Both directions, two steps inside each bound. -/
theorem witness_DefaultTableFullCycle :
    (∀ p ∈ [(98 : Num), -98], (bench { encA with pos := p } []).inst? 1 = some { encA with pos := p } ∧
        ({ encA with pos := p }).strategy = .a ∧ ({ encA with pos := p }).st = 0#4 ∧ -100 ≤ p ∧ p ≤ 100) ∧
      (bench encA []).config.tt = ttDefault ∧ (bench encA []).config.codeOrder = .ba ∧
      (bench encA []).fifo = some ⟨4, []⟩ ∧ ([] : List Event).length + 2 ≤ 4 ∧ 0 < encA.step ∧
      (98 : Num) + encA.step + encA.step ≤ encA.max ∧ encA.min ≤ (-98 : Num) - encA.step - encA.step := by
  decide +kernel

theorem witness_DefaultTableAbsorbsBounce :
    (bench encA []).inst? 1 = some encA ∧ encA.strategy = .a ∧ encA.st = 0#4 ∧ (bench encA []).config.tt = ttDefault ∧
      (bench encA []).config.codeOrder = .ba := by decide +kernel

theorem witness_WpStepsPosition :
    (bench encB []).inst? 1 = some encB ∧ encB.strategy = .b ∧ encB.cnt = 0 ∧ (bench encB []).fifo = some ⟨4, []⟩ ∧
      (bench encB []).config.wpPolarity = .plusIsCw := by decide +kernel

/-- Both clauses, one step inside each bound. -/
theorem witness_WpOppositeStepsReturn :
    (∀ p ∈ [(99 : Num), -99], (bench { encB with pos := p } []).inst? 1 = some { encB with pos := p } ∧
        ({ encB with pos := p }).strategy = .b ∧ ({ encB with pos := p }).Valid) ∧
      (bench encB []).config.wpPolarity = .plusIsCw ∧ (bench encB []).fifo = some ⟨4, []⟩ ∧
      ([] : List Event).length + 2 ≤ 4 ∧ (99 : Num) + encB.step ≤ encB.max ∧ encB.min ≤ (-99 : Num) - encB.step := by
  decide +kernel

theorem witness_DecodedStepArithmetic : encA.Valid := by decide +kernel

/-- A step up after a first edge; then each direction, one step inside the bound, at it, and none. -/
theorem witness_DecodedPositionsStayInRange :
    ((bench encA []).inst? 1 = some encA ∧ encA.Valid ∧
      (∀ o ∈ [Instr.edgeAb 1 0#2, .edgeAb 1 1#2], (∃ code, o = .edgeAb 1 code) ∨ ∃ w, o = .wp 1 w) ∧
      ∃ t u, execAll [.edgeAb 1 1#2] (bench encA []) = .next t ∧ exec (.edgeAb 1 0#2) t = .next u) ∧
    (decodedDir t0 { encA with st := 2, pos := 99 } (.edgeAb 1 0#2) = some .cw ∧
      decodedDir t0 { encA with st := 1, pos := -100 } (.edgeAb 1 0#2) = some .ccw ∧
      decodedDir t0 encA (.edgeAb 1 1#2) = some .none ∧ decodedDir t0 { encB with pos := 100 } (.wp 1 .plus) = some .cw) := by
  have h : ∃ t, exec (.edgeAb 1 0#2) (bench { encA with st := 2 } []) = .next t ∧ true = true :=
    next_with (p := fun _ => true) (by decide +kernel)
  obtain ⟨u, hu, -⟩ := h
  refine ⟨⟨by decide +kernel, by decide +kernel, ?_, bench { encA with st := 2 } [], u,
    next_of_after (by decide +kernel), hu⟩, by decide +kernel⟩
  intro o ho
  rcases List.mem_cons.1 ho with rfl | ho
  · exact .inl ⟨_, rfl⟩
  · exact .inl ⟨_, List.mem_singleton.1 ho⟩

/-- On each bound. -/
theorem witness_OutwardStepOnBoundSilent :
    (∀ p ∈ [(100 : Num), -100], (bench { encB with pos := p } fullQueue).inst? 1 = some { encB with pos := p } ∧
        ({ encB with pos := p }).strategy = .b ∧ ({ encB with pos := p }).Valid) ∧
      (bench encB []).config.wpPolarity = .plusIsCw ∧ encB.max = 100 ∧ encB.min = -100 := by decide +kernel

/-- Each clause: not live; just outside a bound; on the bounds. -/
theorem witness_SetTakesExactlyTheRange :
    (bench encA []).inst? 2 = none ∧ (bench encA []).inst? 1 = some encA ∧ (-101 : Num) < encA.min ∧ encA.max < (101 : Num) ∧
      encA.min ≤ (-100 : Num) ∧ (-100 : Num) ≤ encA.max ∧ encA.min ≤ (100 : Num) ∧ (100 : Num) ≤ encA.max := by
  decide +kernel

/-- Both clauses; `0` is never live. -/
theorem witness_GetReturnsPosition :
    (bench encA []).inst? 1 = some encA ∧ (bench encA []).inst? 0 = none := by decide +kernel

theorem witness_ResetRecentresPosition :
    (bench encA []).inst? 2 = none ∧ (bench encA []).inst? 1 = some encA ∧ encA.min < encA.max := by decide +kernel

/-- Each clause: not live; `max2 = min2`; `step2 = 0`; a legal range. -/
theorem witness_ReinitReplacesRange :
    (bench encA []).inst? 2 = none ∧ (bench encA []).inst? 1 = some encA ∧ (5 : Num) ≤ 5 ∧ (0 : Num) ≤ 0 ∧ (0 : Num) < 7 ∧
      (0 : Num) < 3 := by decide +kernel

theorem witness_SetThenGetReturnsIt :
    ∃ t, exec (.set 1 (1 / 3)) (bench encA []) = .next t ∧ decide (t.resp = .result .ok) = true :=
  next_with (by decide +kernel)

theorem witness_AccessorsLeaveDecoderAlone :
    ∃ t, exec (.reinit 1 0 7 3) (bench encA []) = .next t ∧ decide (t.resp = .result .ok) = true :=
  next_with (by decide +kernel)

/-- Accepted at the threshold; rejected one tick before it. -/
theorem witness_EdgeBtnDebounces :
    (bench encBtn []).inst? 1 = some encBtn ∧ encBtn.pinBtn ≠ (bench encBtn []).config.pinNone ∧
      (bench encBtn []).fifo = some ⟨4, []⟩ ∧ Accepted encBtn 0#1 1050 ∧ ¬ Accepted encBtn 0#1 1049 := by decide +kernel

/-- At the last tick too close. -/
theorem witness_CloserEdgesRejected :
    (bench encBtn []).inst? 1 = some encBtn ∧ encBtn.pinBtn ≠ (bench encBtn []).config.pinNone ∧ 1060 ≤ 1109 ∧
      1109 - 1060 < encBtn.deb ∧ ∃ t, exec (.edgeBtn 1 0#1 1060) (bench encBtn []) = .next t ∧ true = true :=
  ⟨by decide +kernel, by decide +kernel, by decide, by decide +kernel,
    next_with (p := fun _ => true) (by decide +kernel)⟩

/-- Two accepted edges with other operations between them. -/
theorem witness_AcceptedLevelsAlternate :
    (∀ o ∈ [Instr.edgeBtn 1 0#1 1050, .deq, .set 1 5, .edgeBtn 1 1#1 1100], o ≠ .deinit 1) ∧
      (offeredAlong [.edgeBtn 1 0#1 1050, .deq, .set 1 5, .edgeBtn 1 1#1 1100] (bench encBtn [])).filter
        (Event.isButtonOf 1) = [.button 1 0#1, .button 1 1#1] := by decide +kernel

/-- One free slot, and none. -/
theorem witness_EnqueueAppendsOrDrops :
    (bench encA (fullQueue.take 3)).fifo = some ⟨4, fullQueue.take 3⟩ ∧ (fullQueue.take 3).length < 4 ∧
      (bench encA fullQueue).fifo = some ⟨4, fullQueue⟩ ∧ ¬ fullQueue.length < 4 := by decide +kernel

theorem witness_DeqTakesOldest :
    (bench encA [.motion 1 1]).cons = .wait ∧ (bench encA [.motion 1 1]).fifo = some ⟨4, .motion 1 1 :: []⟩ := by
  decide +kernel

theorem witness_PubPublishesOrCounts :
    ({ bench encA [] with cons := .hold (.motion 1 1) }).cons = .hold (.motion 1 1) := rfl

/-- Each clause: an event appended, one taken, the queue created, the queue destroyed. -/
theorem witness_QueueIsFirstInFirstOut :
    (bench encB []).Inv ∧ (State.powerOn t0).Inv ∧
      seen (exec (.wp 1 .plus) (bench encB [])) = some (some (0#4, 1), [.motion 1 1], 0) ∧
      (after (exec .deq (bench encB [.motion 1 1]))).map State.queued = some [] ∧
      (after (exec (.init cfg1 .ok 0#1 0) (State.powerOn t0))).map State.fifo = some (some ⟨4, []⟩) ∧
      (after (exec (.deinit 1) (bench encB []))).map State.fifo = some none :=
  ⟨bench_inv.2.1, witness_EveryOperationCompletes.1, by decide +kernel⟩

/-- Each clause: an event taken, published, the consumer brought into being, and ended. -/
theorem witness_ConsumerAlternates :
    (bench encB []).Inv ∧ (State.powerOn t0).Inv ∧
      (after (exec .deq (bench encB [.motion 1 1]))).map State.cons = some (.hold (.motion 1 1)) ∧
      (after (exec (.pub .ok 1) { bench encB [] with cons := .hold (.motion 1 1) })).map State.cons = some .wait ∧
      (after (exec (.init cfg1 .ok 0#1 0) (State.powerOn t0))).map State.cons = some .wait ∧
      (after (exec (.deinit 1) (bench encB []))).map State.cons = some .absent :=
  ⟨bench_inv.2.1, witness_EveryOperationCompletes.1, by decide +kernel⟩

/-- Each clause: an event added, the held one lost, a teardown. -/
theorem witness_EventsKeepTheirOrder :
    (bench encB []).Inv ∧ (State.offered (.wp 1 .plus) (bench encB [])) = some (.motion 1 1) ∧
      (after (exec (.wp 1 .plus) (bench encB []))).map State.line = some [.motion 1 1] ∧
      (after (exec (.pub .fail 1) { bench encB [.motion 1 2] with cons := .hold (.motion 1 1) })).map State.line =
        some [.motion 1 2] ∧
      (after (exec (.deinit 1) (bench encB [.motion 1 2]))).map State.line = some [] :=
  ⟨bench_inv.2.1, by decide +kernel⟩

/-- A run with an event in the queue; and one whose teardown discards it. -/
theorem witness_EventAccounting :
    (∃ t, execAll [.init { cfg1 with strategy := .b } .ok 0#1 0, .wp 1 .plus] (State.powerOn t0) = .next t ∧
        decide (t.accounted = 1) = true) ∧
      (∃ t, execAll [.init { cfg1 with strategy := .b } .ok 0#1 0, .wp 1 .plus, .deinit 1] (State.powerOn t0) = .next t ∧
        decide (t.accounted = 0) = true) ∧
      (discardedAlong [.init { cfg1 with strategy := .b } .ok 0#1 0, .wp 1 .plus, .deinit 1] (State.powerOn t0) = 1) ∧
      ∀ o ∈ [Instr.init { cfg1 with strategy := .b } .ok 0#1 0, .wp 1 .plus, .deinit 1], o ≠ .resetStats :=
  ⟨next_with (by decide +kernel), next_with (by decide +kernel), by decide +kernel, by decide +kernel⟩

/-- An event offered; a teardown of a queue that holds one. -/
theorem witness_StepAccountsForEvents :
    (bench encB []).Inv ∧ (∃ t, exec (.wp 1 .plus) (bench encB []) = .next t ∧ decide (t.accounted = 1) = true) ∧
      (bench encA fullQueue).Inv ∧
      (∃ t, exec (.deinit 1) (bench encA fullQueue) = .next t ∧
        decide (discarded (.deinit 1) (bench encA fullQueue) t = 4) = true) ∧ Instr.wp 1 .plus ≠ .resetStats :=
  ⟨bench_inv.2.1, next_with (by decide +kernel), bench_inv.2.2.2, next_with (by decide +kernel), by simp⟩

/-- Each clause: a failed check (V-I4, at the boundary), none (V-I1), a second encoder. -/
theorem witness_InitFollowsItsRule :
    InitCheckFails (State.powerOn t0) { cfg1 with stack := 2047 } ∧ ¬ InitCheckFails (State.powerOn t0) cfg1 ∧
      (State.powerOn t0).numbers = [] ∧ ¬ InitCheckFails (bench encA []) { cfg1 with num := 2 } ∧
      (bench encA []).numbers ≠ [] := by decide +kernel

theorem witness_InitThenGetIsMidpoint :
    ∃ t, exec (.init { cfg1 with min := 0, max := 3 } .ok 0#1 0) (State.powerOn t0) = .next t ∧
      decide (t.resp = .result .ok) = true := next_with (by decide +kernel)

theorem witness_DuplicateInitRejected : (bench encA []).live cfg1.num = true := by decide +kernel

/-- Each clause: not live; the last encoder; one of two. -/
theorem witness_DeinitRemovesEncoder :
    (bench encA []).inst? 2 = none ∧ (bench encA []).inst? 1 = some encA ∧ (pair encA []).inst? 1 = some encA ∧
      (pair encA []).numbers.filter (fun m => m != 1) ≠ [] := by decide +kernel

theorem witness_CountersFallOnlyByResetMinimumNeverRises :
    Instr.pub .fail 480 ≠ .resetStats ∧ ({ bench encA [] with cons := .hold (.motion 1 1), minFree := some 512 }).minFree =
        some 512 ∧
      ∃ t, exec (.pub .fail 480) { bench encA [] with cons := .hold (.motion 1 1), minFree := some 512 } = .next t ∧
        decide (t.minFree = some 480) = true := ⟨by simp, rfl, next_with (by decide +kernel)⟩

theorem witness_ErrorsWriteNothing :
    ∃ t, exec (.set 1 101) (bench encA []) = .next t ∧ decide (t.resp = .result .invalidArgument) = true :=
  next_with (by decide +kernel)

/-- Each error. -/
theorem witness_ErrorsMatchTheTable :
    (after (exec (.init cfg1 .fail 0#1 0) (State.powerOn t0))).map State.resp = some (.result .resourceExhausted) ∧
      (after (exec (.get 1) (State.powerOn t0))).map State.resp = some (.result .notInitialized) ∧
      (after (exec (.init cfg1 .ok 0#1 0) (bench encA []))).map State.resp = some (.result .invalidArgument) ∧
      (after (exec (.set 1 101) (bench encA []))).map State.resp = some (.result .invalidArgument) ∧
      (after (exec (.reinit 1 5 5 1) (bench encA []))).map State.resp = some (.result .invalidArgument) := by
  decide +kernel

theorem witness_HostCommandsNeverEnqueue :
    contextOf (.set 1 50) = .caller ∧ ∃ t, exec (.set 1 50) (bench encA []) = .next t ∧ decide (t.queued = []) = true :=
  ⟨rfl, next_with (by decide +kernel)⟩

/-- One operation of each context. -/
theorem witness_ContextsWriteTheirOwn :
    (contextOf (.wp 1 .plus) = .interrupt ∧ (bench encB []).inst? 1 = some encB ∧
        (after (exec (.wp 1 .plus) (bench encB []))).map State.queued = some [.motion 1 1]) ∧
      (contextOf .deq = .consumer ∧ (after (exec .deq (bench encB [.motion 1 1]))).map State.queued = some []) ∧
      contextOf (.set 1 5) = .caller ∧
        (after (exec (.set 1 5) (bench encB []))).map (fun t => t.inst? 1) = some (some { encB with pos := 5 }) := by
  decide +kernel

/-- V-A44: encoder 2 moves, encoder 1 stays. -/
theorem witness_OtherEncodersUntouched :
    (Instr.wp 2 .plus).number ≠ some 1 ∧ ∃ t, exec (.wp 2 .plus) (pair encA []) = .next t ∧
      decide (t.queued = [.motion 2 1]) = true := ⟨by decide, next_with (by decide +kernel)⟩

theorem witness_OtherEncodersNotRead :
    (Instr.wp 2 .plus).number ≠ some ({ encA with pos := 5 }).num ∧ ∃ t, exec (.wp 2 .plus) (pair encA []) = .next t ∧
      decide (t.queued = [.motion 2 1]) = true := ⟨by decide +kernel, next_with (by decide +kernel)⟩

theorem witness_BusGrowsByPublishing :
    ∃ t, exec (.pub .ok 600) { bench encA [] with cons := .hold (.motion 1 1) } = .next t ∧
      decide (t.bus = [.motion 1 1]) = true := next_with (by decide +kernel)

theorem witness_TransitionTableConstant :
    ∃ t, exec (.edgeAb 1 1#2) (bench encA []) = .next t ∧ decide (t.config.tt = ttDefault) = true :=
  next_with (by decide +kernel)

theorem witness_NewEventsNameLiveEncoders :
    ∃ t, exec (.wp 1 .plus) (bench encB []) = .next t ∧ decide (t.queued = [.motion 1 1]) = true :=
  next_with (by decide +kernel)

end Sys2Proof.Tests
end

section
/-! SUPPORT. The family `Memory` (20_memory.md): what an operation does to the queue, read off the cases of `Move`. -/

namespace Sys2Proof.Machine

/-- Only an interrupt-side operation offers an event (R163, R171). -/
theorem State.offered_eq_none {i : Instr} (h : contextOf i ≠ .interrupt) (s : State) : s.offered i = none := by
  cases i with
  | edgeAb n code => exact absurd rfl h
  | wp n w => exact absurd rfl h
  | edgeBtn n lvl now => exact absurd rfl h
  | _ => rfl

/-- A position command that writes is a host command. -/
theorem Accessed.contextOf_eq {r r' : Inst} {i : Instr} (h : Accessed r i r') : contextOf i = .caller := by
  cases h <;> rfl

/-- The operation leaves the queue, takes no event from it, and has no event it could have appended (R67, R171). -/
abbrev QueueStays (s : State) (i : Instr) (t : State) : Prop :=
  t.fifo = s.fifo ∧ i ≠ .deq ∧ ∀ ev, s.offered i = some ev → ∃ f, s.fifo = some f ∧ ¬ f.q.length < f.cap

/-- The operation appends the event it offers, in a free slot (R67, R171). -/
abbrev QueueAppends (s : State) (i : Instr) (t : State) : Prop :=
  ∃ f ev, s.offered i = some ev ∧ contextOf i = .interrupt ∧ s.fifo = some f ∧ f.q.length < f.cap ∧
    t.fifo = some ⟨f.cap, f.q ++ [ev]⟩

/-- An operation of the consumer or a caller that is no `DEQ` and writes no queue leaves it as `QueueStays` says. -/
theorem queueStays_of_fifo {s t : State} {i : Instr} (hf : t.fifo = s.fifo) (hd : i ≠ .deq)
    (hc : contextOf i ≠ .interrupt) : QueueStays s i t :=
  ⟨hf, hd, fun _ ho => by rw [s.offered_eq_none hc] at ho; cases ho⟩

/-- A host command that writes no queue leaves it as `QueueStays` says. -/
theorem queueStays_of_caller {s t : State} {i : Instr} (hc : contextOf i = .caller) (hf : t.fifo = s.fifo) :
    QueueStays s i t :=
  queueStays_of_fifo hf (by rintro rfl; cases hc) (by rw [hc]; decide)

/-- An interrupt-side operation leaves the queue or appends to it (R171). -/
theorem Offered.queue {s t : State} {i : Instr} (hc : contextOf i = .interrupt) (h : Offered (s.offered i) s t) :
    QueueStays s i t ∨ QueueAppends s i t := by
  have hd : i ≠ .deq := by rintro rfl; cases hc
  cases ho : s.offered i with
  | none =>
    rw [ho] at h
    exact .inl ⟨h.1, hd, by simp [ho]⟩
  | some ev =>
    rw [ho] at h
    obtain ⟨f, hf, hq⟩ := h
    by_cases hl : f.q.length < f.cap
    · rw [Enqueued, if_pos hl] at hq
      exact .inr ⟨f, ev, ho, hc, hf, hl, hq.1⟩
    · rw [Enqueued, if_neg hl] at hq
      exact .inl ⟨hq.1, hd, fun _ _ => ⟨f, hf, hl⟩⟩

/-- A successful `INIT` creates the queue empty where there was none, or leaves it (R191, R195). -/
theorem openIfFirst_fifo {s : State} (hinv : s.Inv) (cap : Nat) :
    (s.fifo = none ∧ (openIfFirst cap s).fifo = some ⟨cap, []⟩) ∨ (openIfFirst cap s).fifo = s.fifo := by
  obtain ⟨-, -, -, hfifo, -, -⟩ := hinv
  rcases openIfFirst_cases cap s with ⟨hr, ho⟩ | ⟨-, ho⟩
  · exact .inl ⟨hfifo.2 hr, by rw [ho, State.openShared_fifo]⟩
  · exact .inr (by rw [ho])

/-- With the last encoder the queue goes; else it stays (R200, R201). -/
theorem closeIfLast_fifo (s : State) :
    ((closeIfLast s).numbers = [] ∧ (closeIfLast s).fifo = none) ∨ (closeIfLast s).fifo = s.fifo := by
  rcases closeIfLast_cases s with ⟨hr, ho⟩ | ⟨-, ho⟩
  · exact .inl (by simp [ho, State.numbers, hr])
  · exact .inr (by rw [ho])

/-- Settles O39: each case of `Move` is one of the five things that can become of the queue (R67). -/
theorem queueIsFirstInFirstOut : Obligations.QueueIsFirstInFirstOut := by
  intro s t i hinv h
  cases exec_move h with
  | answered hc _ _ => exact .inl (queueStays_of_caller hc rfl)
  | stimulus _ _ hc _ _ ho _ _ =>
    rcases ho.queue hc with hs | ha
    · exact .inl hs
    · exact .inr (.inl ha)
  | @deq f ev rest _ hf hq => exact .inr (.inr (.inl ⟨f, ev, rest, rfl, hf, hq, rfl, rfl⟩))
  | pubOk _ => exact .inl (queueStays_of_fifo rfl nofun nofun)
  | pubFail _ => exact .inl (queueStays_of_fifo rfl nofun nofun)
  | @init cfg lvl0 now _ =>
    rcases openIfFirst_fifo hinv cfg.qcap with ⟨hnone, hnew⟩ | hkept
    · exact .inr (.inr (.inr (.inl ⟨cfg, .ok, lvl0, now, rfl, hnone, hnew⟩)))
    · exact .inl (queueStays_of_caller rfl hkept)
  | @deinit n _ _ =>
    rcases closeIfLast_fifo (s.removeInst n) with ⟨hnum, hgone⟩ | hkept
    · exact .inr (.inr (.inr (.inr ⟨n, rfl, hnum, hgone⟩)))
    · exact .inl (queueStays_of_caller rfl hkept)
  | access _ _ ha => exact .inl (queueStays_of_caller ha.contextOf_eq rfl)
  | resetStats => exact .inl (queueStays_of_caller rfl rfl)

end Sys2Proof.Machine
end

section
/-! SUPPORT. The family `Position` (44_position.md): the decoded step over every sequence of decoder operations, the accessors
that write a position, and what host commands may do to the queue. -/

namespace Sys2Proof.Machine

/-- Two register sets with the same range and step. -/
abbrev SameRange (i j : Inst) : Prop := j.min = i.min ∧ j.max = i.max ∧ j.step = i.step

/-- The operation is one of the two that decode a transition of encoder `n`. -/
abbrev DecodesFor (n : Nat) (o : Instr) : Prop := (∃ code, o = .edgeAb n code) ∨ ∃ w, o = .wp n w

/-- The encoder `n` is live and valid, its range and step those of `i`. -/
abbrev LiveWithRange (n : Nat) (i : Inst) (s : State) : Prop := ∃ j, s.inst? n = some j ∧ j.Valid ∧ SameRange i j

/-- A clockwise step of a valid encoder is a whole one, or to the upper bound where that would cross it (R151, R153). -/
theorem stepTarget_cw {i : Inst} (hv : i.Valid) :
    stepTarget i .cw = if i.pos + i.step ≤ i.max then i.pos + i.step else i.max := by
  obtain ⟨-, hstep, hmin, -⟩ := hv
  have hlow : ¬ i.pos + i.step < i.min := by linarith
  by_cases h : i.pos + i.step ≤ i.max
  · simp [stepTarget, clamp, hlow, h, not_lt.2 h]
  · simp [stepTarget, clamp, hlow, h, not_le.1 h]

/-- A counter-clockwise step of a valid encoder is a whole one, or to the lower bound where that would cross it (R151, R153). -/
theorem stepTarget_ccw {i : Inst} (hv : i.Valid) :
    stepTarget i .ccw = if i.min ≤ i.pos - i.step then i.pos - i.step else i.min := by
  obtain ⟨-, hstep, -, hmax, -⟩ := hv
  have hhigh : ¬ i.max < i.pos - i.step := by linarith
  by_cases h : i.min ≤ i.pos - i.step
  · simp [stepTarget, clamp, hhigh, h, not_lt.2 h]
  · simp [stepTarget, clamp, h, not_le.1 h]

/-- What a decoder operation makes of the register set: the position takes the step of the decoded direction; range, step and
validity are kept (R104, R122, R151). -/
theorem Wrote.decoded {s : State} {n : Nat} {o : Instr} {r r' : Inst} (hw : Wrote s r o r') (ho : DecodesFor n o)
    (hv : r.Valid) :
    ∃ d, decodedDir s.config r o = some d ∧ r'.pos = stepTarget r d ∧ SameRange r r' ∧ r'.num = r.num ∧ r'.Valid := by
  have hstay := stepTarget_mem hv
  obtain ⟨hlt, hstep, -, -, hst, hcnt, hnum⟩ := hv
  cases hw with
  | @edgeAb _ code row _ hrow =>
    exact ⟨(edgeEntry s.config row code).dir, by simp [decodedDir, hrow], rfl, ⟨rfl, rfl, rfl⟩, rfl,
      hlt, hstep, (hstay _).1, (hstay _).2, zext4_le _, hcnt, hnum⟩
  | wp _ =>
    exact ⟨_, rfl, rfl, ⟨rfl, rfl, rfl⟩, rfl, hlt, hstep, (hstay _).1, (hstay _).2, hst, rfl, hnum⟩
  | accepted _ _ => rcases ho with ⟨_, h⟩ | ⟨_, h⟩ <;> cases h
  | rejected _ _ => rcases ho with ⟨_, h⟩ | ⟨_, h⟩ <;> cases h

/-- A decoder operation that makes a transition has written its encoder's register set and nothing else of the registry. -/
theorem exec_wrote_of_decodes {s t : State} {n : Nat} {o : Instr} {r : Inst} (hr : s.inst? n = some r)
    (ho : DecodesFor n o) (h : exec o s = .next t) : ∃ r', Wrote s r o r' ∧ t.reg = putInst r' s.reg := by
  rcases ho with ⟨code, rfl⟩ | ⟨w, rfl⟩ <;> cases exec_move h with
  | answered hc _ _ => cases hc
  | stimulus hn hr' _ hw ht _ _ _ =>
    cases hn
    cases hr.symm.trans hr'
    exact ⟨_, hw, ht⟩
  | access _ _ ha => cases ha

/-- One decoded transition of a valid encoder: it stays valid with its range and step, and takes the step of the decoded
direction (R151). -/
theorem exec_decoded {s t : State} {n : Nat} {o : Instr} {j : Inst} (hj : s.inst? n = some j) (hv : j.Valid)
    (ho : DecodesFor n o) (h : exec o s = .next t) :
    ∃ k d, t.inst? n = some k ∧ decodedDir s.config j o = some d ∧ k.pos = stepTarget j d ∧ SameRange j k ∧ k.Valid := by
  obtain ⟨k, hw, ht⟩ := exec_wrote_of_decodes hj ho h
  obtain ⟨d, hd, hpos, hrange, hnum, hk⟩ := hw.decoded ho hv
  have hn : k.num = n := hnum.trans (State.inst?_num hj)
  exact ⟨k, d, (onlyWritten_of_reg hj hn ht).1, hd, hpos, hrange, hk⟩

/-- What every operation of a list keeps, the run of the list keeps; a disabled one goes by (R14). -/
theorem execAll_keeps {P : State → Prop} {ops : List Instr}
    (hstep : ∀ o ∈ ops, ∀ s t, P s → exec o s = .next t → P t) :
    ∀ {s t : State}, P s → execAll ops s = .next t → P t := by
  induction ops with
  | nil =>
    intro s t hs h
    cases h
    exact hs
  | cons o os ih =>
    intro s t hs h
    have ih' := @ih fun p hp => hstep p (List.mem_cons_of_mem _ hp)
    rw [execAll] at h
    split at h
    · rename_i u hu
      exact ih' (hstep o List.mem_cons_self s u hs hu) h
    · cases h
    · split at h
      · exact ih' hs h
      · cases h

/-- Every run of decoder operations keeps the encoder live and valid, with its range and step (R153). -/
theorem execAll_decoded {s t : State} {n : Nat} {i : Inst} {ops : List Instr} (ho : ∀ o ∈ ops, DecodesFor n o)
    (hs : LiveWithRange n i s) (h : execAll ops s = .next t) : LiveWithRange n i t := by
  refine execAll_keeps (fun o hm a b ⟨j, hj, hv, hmin, hmax, hst⟩ hab => ?_) hs h
  obtain ⟨k, -, hk, -, -, ⟨hmin', hmax', hst'⟩, hvk⟩ := exec_decoded hj hv (ho o hm) hab
  exact ⟨k, hk, hvk, hmin'.trans hmin, hmax'.trans hmax, hst'.trans hst⟩

/-- Settles O25: the run before the last transition keeps `LiveWithRange`, and the last one is a decoded step of the
direction in hand (R153). -/
theorem decodedPositionsStayInRange : Obligations.DecodedPositionsStayInRange := by
  intro s t u n i ops op hi hv hops hrun hlast
  obtain ⟨j, hj, hvj, hmin, hmax, hst⟩ : LiveWithRange n i t :=
    execAll_decoded (fun o ho => hops o (List.mem_cons_of_mem _ ho)) ⟨i, hi, hv, rfl, rfl, rfl⟩ hrun
  obtain ⟨k, d, hk, hd, hpos, ⟨hmin', hmax', hst'⟩, hvk⟩ := exec_decoded hj hvj (hops op List.mem_cons_self) hlast
  have ⟨_, _, hjlo, hjhi, _⟩ := hvj
  obtain ⟨-, -, hklo, hkhi, -⟩ := hvk
  rw [hmin', hmin] at hklo
  rw [hmax', hmax] at hkhi
  refine ⟨j, k, d, hj, hk, hd, hmin, hmax, hst, hmin'.trans hmin, hmax'.trans hmax, hst'.trans hst,
    hmin ▸ hjlo, hmax ▸ hjhi, hklo, hkhi, ?_, ?_, ?_⟩
  · rintro rfl
    rw [hpos, stepTarget_cw hvj, hmax, hst]
  · rintro rfl
    rw [hpos, stepTarget_ccw hvj, hmin, hst]
  · rintro rfl
    exact hpos

/-- `INIT` counts no drop when it opens the queue (R191). -/
@[simp] theorem openIfFirst_qDrop (cap : Nat) (s : State) : (openIfFirst cap s).qDrop = s.qDrop := by
  rcases openIfFirst_cases cap s with ⟨-, ho⟩ | ⟨-, ho⟩
  · rw [ho, State.openShared_qDrop]
  · rw [ho]

/-- `DEINIT` counts no drop when it closes the queue (R200). -/
@[simp] theorem closeIfLast_qDrop (s : State) : (closeIfLast s).qDrop = s.qDrop := by
  rcases closeIfLast_cases s with ⟨-, ho⟩ | ⟨-, ho⟩
  · rw [ho, State.closeShared_qDrop]
  · rw [ho]

/-- Settles O53: of the cases of `Move` that a host command can make, only `INIT` and `DEINIT` touch the queue (R163). -/
theorem hostCommandsNeverEnqueue : Obligations.HostCommandsNeverEnqueue := by
  intro s t i hc h
  cases exec_move h with
  | answered _ _ _ => exact ⟨le_rfl, .inl rfl⟩
  | stimulus _ _ hi _ _ _ _ _ => cases hc.symm.trans hi
  | deq _ _ _ => cases hc
  | pubOk _ => cases hc
  | pubFail _ => cases hc
  | @init cfg lvl0 now _ =>
    refine ⟨(openIfFirst_qDrop cfg.qcap s).le, ?_⟩
    rcases openIfFirst_cases cfg.qcap s with ⟨-, ho⟩ | ⟨-, ho⟩
    · exact .inr (.inl ⟨cfg, .ok, lvl0, now, rfl, by simp [ho]⟩)
    · exact .inl (by simp [ho])
  | @deinit n _ _ =>
    refine ⟨(closeIfLast_qDrop (s.removeInst n)).le, ?_⟩
    rcases closeIfLast_fifo (s.removeInst n) with ⟨-, hgone⟩ | hkept
    · exact .inr (.inr ⟨n, rfl, hgone⟩)
    · exact .inl hkept
  | access _ _ _ => exact ⟨le_rfl, .inl rfl⟩
  | resetStats => exact ⟨Nat.zero_le _, .inl rfl⟩

/-- A host command that ends by writing back one register set of a live encoder returns `Ok` and leaves the rest (R13). -/
theorem finish_setInst {s : State} {n : Nat} {i j : Inst} (hi : s.inst? n = some i) (hj : j.num = i.num) :
    ∃ t, finish .ok (s.setInst j) = .next t ∧ t.resp = .result .ok ∧ OnlyWritten n j s t ∧ KeepsShared s t :=
  ⟨_, rfl, rfl, onlyWritten_of_reg hi (hj.trans (State.inst?_num hi)) rfl, rfl, rfl, ⟨rfl, rfl, rfl⟩, rfl, rfl, rfl⟩

/-- `SET` on a number that is not live (R155). -/
theorem exec_set_dead {s : State} {n : Nat} (h : s.inst? n = none) (p : Num) :
    exec (.set n p) s = raise .notInitialized s := by
  simp [exec, execSet, h]

/-- `SET` on a live encoder (R155). -/
theorem exec_set_live {s : State} {n : Nat} {i : Inst} (h : s.inst? n = some i) (p : Num) :
    exec (.set n p) s =
      if p < i.min ∨ i.max < p then raise .invalidArgument s else finish .ok (s.setInst (i.setPos p)) := by
  simp [exec, execSet, h]

/-- `RESET` on a number that is not live (R158). -/
theorem exec_reset_dead {s : State} {n : Nat} (h : s.inst? n = none) :
    exec (.reset n) s = raise .notInitialized s := by
  simp [exec, execReset, h]

/-- `RESET` on a live encoder (R158). -/
theorem exec_reset_live {s : State} {n : Nat} {i : Inst} (h : s.inst? n = some i) :
    exec (.reset n) s = finish .ok (s.setInst (i.setPos (mid i.min i.max))) := by
  simp [exec, execReset, h]

/-- `REINIT` on a number that is not live (R160). -/
theorem exec_reinit_dead {s : State} {n : Nat} (h : s.inst? n = none) (min2 max2 step2 : Num) :
    exec (.reinit n min2 max2 step2) s = raise .notInitialized s := by
  simp [exec, execReinit, h]

/-- `REINIT` on a live encoder (R160). -/
theorem exec_reinit_live {s : State} {n : Nat} {i : Inst} (h : s.inst? n = some i) (min2 max2 step2 : Num) :
    exec (.reinit n min2 max2 step2) s =
      if max2 ≤ min2 ∨ step2 ≤ 0 then raise .invalidArgument s
      else finish .ok (s.setInst ((i.setRange min2 max2 step2).setPos (mid min2 max2))) := by
  simp [exec, execReinit, h]

/-- Settles O27: the three cases of `SET` (R155). -/
theorem setTakesExactlyTheRange : Obligations.SetTakesExactlyTheRange := by
  intro s n p
  refine ⟨⟨rfl, rfl⟩, fun h => exec_set_dead h p, fun i hi hp => ?_, fun i hi hlo hhi => ?_⟩
  · rw [exec_set_live hi, if_pos hp]
    rfl
  · rw [exec_set_live hi, if_neg (not_or.2 ⟨not_lt.2 hlo, not_lt.2 hhi⟩)]
    exact finish_setInst hi rfl

/-- Settles O29: the two cases of `RESET`, with the midpoint of a proper range inside it (R158). -/
theorem resetRecentresPosition : Obligations.ResetRecentresPosition := by
  intro s n
  refine ⟨⟨rfl, rfl⟩, fun h => exec_reset_dead h, fun i hi => ⟨fun hlt => mid_between hlt, ?_⟩⟩
  rw [exec_reset_live hi]
  exact finish_setInst hi rfl

/-- Settles O30: the three cases of `REINIT` (R160). -/
theorem reinitReplacesRange : Obligations.ReinitReplacesRange := by
  intro s n min2 max2 step2
  refine ⟨⟨rfl, rfl⟩, fun h => exec_reinit_dead h min2 max2 step2, fun i hi hbad => ?_, fun i hi hlt hpos => ?_⟩
  · rw [exec_reinit_live hi, if_pos hbad]
    rfl
  · rw [exec_reinit_live hi, if_neg (not_or.2 ⟨not_le.2 hlt, not_le.2 hpos⟩)]
    exact finish_setInst hi rfl

end Sys2Proof.Machine
end

section
/-! SUPPORT. What becomes of an event offered to the queue (45_fifo_consumer.md rule R171). -/

namespace Sys2Proof.Machine

/-- Settles O36: a free slot decides between the two answers of `enqueue` on an existing queue, the append and the counted
drop (R171). -/
theorem enqueueAppendsOrDrops : Obligations.EnqueueAppendsOrDrops := by
  intro s ev f hf
  constructor
  · exact fun hfree => enqueue_append hf hfree
  · exact fun hfull => enqueue_drop hf hfull

end Sys2Proof.Machine
end

section
/-! SUPPORT. The family `Registry` (46_registry_stats.md): what `INIT` and `DEINIT` make of the state, and what an operation
does on a number that is not live. -/

namespace Sys2Proof.Machine

/-- No number is registered exactly when no register set is. -/
theorem State.numbers_eq_nil {s : State} : s.numbers = [] ↔ s.reg = [] := List.map_eq_nil_iff

/-- The registered numbers depend on the registry alone. -/
theorem State.numbers_congr {s t : State} (h : t.reg = s.reg) : t.numbers = s.numbers := congrArg (List.map Inst.num) h

/-- A number that is not registered has no register set (R10). -/
theorem State.inst?_of_not_mem_numbers {s : State} {n : Nat} (h : n ∉ s.numbers) : s.inst? n = none :=
  State.inst?_eq_none.2 fun i hi e => h (List.mem_map.2 ⟨i, hi, e⟩)

/-- A new register set registers its number and no other (R191). -/
theorem State.mem_addInst_numbers {s : State} {i : Inst} {m : Nat} :
    m ∈ (s.addInst i).numbers ↔ m = i.num ∨ m ∈ s.numbers := by
  simp [State.numbers, or_and_right, exists_or, eq_comm]

/-- A removal takes its number out of the registered ones (R200). -/
theorem State.removeInst_numbers (s : State) (n : Nat) :
    (s.removeInst n).numbers = s.numbers.filter (fun m => m != n) :=
  (List.filter_map (f := Inst.num) (p := fun m => m != n) (l := s.reg)).symm

/-- Two states alike in all but the registry, the queue, the consumer and the result port. -/
abbrev KeepsRecords (s t : State) : Prop := SameStats s t ∧ t.bus = s.bus ∧ SameContext s t

/-- Opening the shared parts writes no register set. -/
@[simp] theorem openIfFirst_reg (cap : Nat) (s : State) : (openIfFirst cap s).reg = s.reg := by
  rcases openIfFirst_cases cap s with ⟨-, ho⟩ | ⟨-, ho⟩
  · rw [ho, State.openShared_reg]
  · rw [ho]

/-- Opening the shared parts writes neither statistics nor trace (R191). -/
theorem openIfFirst_keepsRecords (cap : Nat) (s : State) : KeepsRecords s (openIfFirst cap s) := by
  rcases openIfFirst_cases cap s with ⟨-, ho⟩ | ⟨-, ho⟩ <;> rw [ho] <;> exact ⟨⟨rfl, rfl, rfl⟩, rfl, rfl, rfl⟩

/-- Closing the shared parts writes no register set. -/
@[simp] theorem closeIfLast_reg (s : State) : (closeIfLast s).reg = s.reg := by
  rcases closeIfLast_cases s with ⟨-, ho⟩ | ⟨-, ho⟩
  · rw [ho, State.closeShared_reg]
  · rw [ho]

/-- Closing the shared parts writes neither statistics nor trace (R200). -/
theorem closeIfLast_keepsRecords (s : State) : KeepsRecords s (closeIfLast s) := by
  rcases closeIfLast_cases s with ⟨-, ho⟩ | ⟨-, ho⟩ <;> rw [ho] <;> exact ⟨⟨rfl, rfl, rfl⟩, rfl, rfl, rfl⟩

/-- The first encoder finds no queue and no consumer and gets new ones (R191, R195). -/
theorem openIfFirst_of_nil {s : State} (h : s.numbers = []) (cap : Nat) : openIfFirst cap s = s.openShared cap :=
  ((openIfFirst_cases cap s).resolve_right fun hr => hr.1 (State.numbers_eq_nil.1 h)).2

/-- A later encoder leaves the queue and the consumer as they are (R190). -/
theorem openIfFirst_of_ne_nil {s : State} (h : s.numbers ≠ []) (cap : Nat) : openIfFirst cap s = s :=
  ((openIfFirst_cases cap s).resolve_left fun hr => h (State.numbers_eq_nil.2 hr.1)).2

/-- With no encoder left the queue and the consumer go (R200, R201). -/
theorem closeIfLast_of_nil {s : State} (h : s.numbers = []) : closeIfLast s = s.closeShared :=
  ((closeIfLast_cases s).resolve_right fun hr => hr.1 (State.numbers_eq_nil.1 h)).2

/-- With an encoder left the queue and the consumer stay (R200). -/
theorem closeIfLast_of_ne_nil {s : State} (h : s.numbers ≠ []) : closeIfLast s = s :=
  ((closeIfLast_cases s).resolve_left fun hr => h (State.numbers_eq_nil.2 hr.1)).2

/-- The validation of `INIT` answers yes exactly when one of the checks of R191 and R192 fails. -/
theorem initInvalid_iff {s : State} {cfg : InitCfg} : initInvalid s.config s.reg cfg = true ↔ InitCheckFails s cfg := by
  simp [initInvalid, InitCheckFails, pinExists, State.numbers, or_assoc]

/-- `INIT` with a failed check, whatever the platform answers (R191, R193). -/
theorem exec_init_invalid {s : State} {cfg : InitCfg} (h : InitCheckFails s cfg) (plat : Answer) (lvl0 : Level)
    (now : Nat) : exec (.init cfg plat lvl0 now) s = raise .invalidArgument s := by
  simp [exec, execInit, initInvalid_iff.2 h]

/-- `INIT` with every check passed and the resources refused (R191, R194). -/
theorem exec_init_refused {s : State} {cfg : InitCfg} (h : ¬ InitCheckFails s cfg) (lvl0 : Level) (now : Nat) :
    exec (.init cfg .fail lvl0 now) s = raise .resourceExhausted s := by
  simp [exec, execInit, mt initInvalid_iff.1 h]

/-- `INIT` with every check passed and the resources granted (R191). -/
theorem exec_init_ok {s : State} {cfg : InitCfg} (h : ¬ InitCheckFails s cfg) (lvl0 : Level) (now : Nat) :
    exec (.init cfg .ok lvl0 now) s =
      finish .ok ((openIfFirst cfg.qcap s).addInst (createInst s.config cfg lvl0 now)) := by
  simp [exec, execInit, mt initInvalid_iff.1 h]

/-- The checks of `INIT` passed, its number has no register set yet (R192). -/
theorem inst?_of_checksPass {s : State} {cfg : InitCfg} (h : ¬ InitCheckFails s cfg) : s.inst? cfg.num = none := by
  simp only [InitCheckFails, not_or] at h
  obtain ⟨-, -, -, -, -, -, -, -, -, -, hfresh, -⟩ := h
  exact State.inst?_of_not_mem_numbers hfresh

/-- `DEINIT` on a number that is not live (R200). -/
theorem exec_deinit_dead {s : State} {n : Nat} (h : s.inst? n = none) :
    exec (.deinit n) s = raise .notInitialized s := by
  simp [exec, execDeinit, h]

/-- `DEINIT` on a live encoder (R200). -/
theorem exec_deinit_live {s : State} {n : Nat} {i : Inst} (h : s.inst? n = some i) :
    exec (.deinit n) s = finish .ok (closeIfLast (s.removeInst n)) := by
  simp [exec, execDeinit, h]

/-- `GET` on a number that is not live (R156). -/
theorem exec_get_dead {s : State} {n : Nat} (h : s.inst? n = none) : exec (.get n) s = raise .notInitialized s := by
  simp [exec, execGet, h]

/-- Every host command on a number that is not live, `INIT` aside, returns `NotInitialized` and writes nothing (R221). -/
theorem exec_caller_dead {s : State} {n : Nat} {o : Instr} (h : s.inst? n = none) (hc : contextOf o = .caller)
    (hn : o.number = some n) (hi : ∀ cfg plat lvl0 now, o ≠ .init cfg plat lvl0 now) :
    exec o s = raise .notInitialized s := by
  cases o with
  | init cfg plat lvl0 now => exact absurd rfl (hi cfg plat lvl0 now)
  | deinit m => cases hn; exact exec_deinit_dead h
  | set m p => cases hn; exact exec_set_dead h p
  | get m => cases hn; exact exec_get_dead h
  | reset m => cases hn; exact exec_reset_dead h
  | reinit m min2 max2 step2 => cases hn; exact exec_reinit_dead h min2 max2 step2
  | edgeAb | wp | edgeBtn | deq | pub => cases hc
  | getStats | resetStats => cases hn

/-- Every stimulus of a number that is not live is disabled (R14, R225). -/
theorem enabled_stimulus_dead {s : State} {n : Nat} {o : Instr} (h : s.inst? n = none)
    (hc : contextOf o = .interrupt) (hn : o.number = some n) : enabled o s = false := by
  cases o with
  | edgeAb m code => cases hn; simp [enabled, h]
  | wp m w => cases hn; simp [enabled, h]
  | edgeBtn m lvl now => cases hn; simp [enabled, h]
  | deq | pub => cases hn
  | _ => cases hc

section Live

variable {s : State} {n : Nat} {i : Inst} (h : s.inst? n = some i)
include h

/-- `EDGE_AB` of a live encoder is enabled with Strategy A and a legal state nibble (R90, R101, R104). -/
theorem enabled_edgeAb_live (code : BitVec 2) :
    enabled (.edgeAb n code) s = true ↔ i.strategy = .a ∧ i.st.toNat ≤ 5 := by
  simp [enabled, h]

/-- `WP` of a live encoder is enabled with Strategy B (R122, R125). -/
theorem enabled_wp_live (w : WatchPoint) : enabled (.wp n w) s = true ↔ i.strategy = .b := by
  simp [enabled, h]

/-- `EDGE_BTN` of a live encoder is enabled with a button (R136, R142). -/
theorem enabled_edgeBtn_live (lvl : Level) (tick : Nat) :
    enabled (.edgeBtn n lvl tick) s = true ↔ i.pinBtn ≠ s.config.pinNone := by
  simp [enabled, h, Inst.hasButton]

end Live

/-- Settles O44: the three outcomes of `INIT` (R191), and for the new encoder what its strategy and its button enable. -/
theorem initFollowsItsRule : Obligations.InitFollowsItsRule := by
  intro s cfg plat lvl0 now
  refine ⟨⟨rfl, rfl⟩, fun h => exec_init_invalid h plat lvl0 now, fun h => exec_init_refused h lvl0 now, fun h => ?_⟩
  obtain ⟨hstats, hbus, hconfig, hstim⟩ := openIfFirst_keepsRecords cfg.qcap s
  have hreg := openIfFirst_reg cfg.qcap s
  have hopen := State.inst?_congr hreg
  have hnew : ((openIfFirst cfg.qcap s).addInst (createInst s.config cfg lvl0 now)).inst? cfg.num =
      some (createInst s.config cfg lvl0 now) :=
    State.addInst_inst?_same ((hopen cfg.num).trans (inst?_of_checksPass h))
  refine ⟨_, exec_init_ok h lvl0 now, rfl, hnew, fun m hm => ?others, fun m => ?numbers, fun h0 => ?first,
    fun h0 => ?later, hstats, hbus, ⟨hconfig, hstim⟩, fun code => ?edgeAb, fun w => enabled_wp_live hnew w, fun lvl tick => ?edgeBtn⟩
  case others => exact (State.addInst_inst?_other _ hm).trans (hopen m)
  case numbers =>
    rw [← State.numbers_congr hreg]
    exact State.mem_addInst_numbers
  case first => simp [openIfFirst_of_nil h0]
  case later => simp [openIfFirst_of_ne_nil h0]
  case edgeAb => exact (enabled_edgeAb_live hnew code).trans (and_iff_left (by simp [createInst]))
  case edgeBtn => exact (enabled_edgeBtn_live hnew lvl tick).trans (by rw [State.addInst_config, hconfig]; rfl)

/-- Settles O47: the two cases of `DEINIT` (R200); the removed number is not live, so its operations are disabled or
`NotInitialized`. -/
theorem deinitRemovesEncoder : Obligations.DeinitRemovesEncoder := by
  intro s n
  refine ⟨⟨rfl, rfl⟩, fun h => exec_deinit_dead h, fun i hi => ?_⟩
  obtain ⟨hstats, hbus, hctx⟩ := closeIfLast_keepsRecords (s.removeInst n)
  have hclose := State.inst?_congr (closeIfLast_reg (s.removeInst n))
  have hnumbers : (closeIfLast (s.removeInst n)).numbers = (s.removeInst n).numbers :=
    State.numbers_congr (closeIfLast_reg _)
  have hgone : (closeIfLast (s.removeInst n)).inst? n = none := (hclose n).trans (s.removeInst_inst?_same n)
  refine ⟨_, exec_deinit_live hi, rfl, hgone, fun m hm => (hclose m).trans (s.removeInst_inst?_other hm),
    hnumbers.trans (s.removeInst_numbers n), fun h0 => ?last, fun h0 => ?others, hstats, hbus, hctx,
    fun o hc ho => enabled_stimulus_dead hgone hc ho, fun o hc ho hinit => exec_caller_dead hgone hc ho hinit⟩
  case last => simp [closeIfLast_of_nil (hnumbers.symm.trans h0)]
  case others => simp [closeIfLast_of_ne_nil fun e => h0 (hnumbers.trans e)]

/-- Settles O48: `GET_STATS` answers with the three registers and ends (R205). -/
theorem getStatsReadsAll : Obligations.GetStatsReadsAll := by
  intro s
  exact ⟨⟨rfl, rfl⟩, rfl⟩

end Sys2Proof.Machine
end

section
/-! SUPPORT. The family `Exceptions` (60_exceptions.md): an error is an answer and nothing else. -/

namespace Sys2Proof.Machine

/-- A move that wrote more than the result port is silent or answers `Ok` (R220, R222). -/
theorem Move.respond_or_noError {s t : State} {i : Instr} (h : Move s i t) :
    t = s.respond t.resp ∨ t.resp = .silent ∨ t.resp = .result .ok := by
  cases h with
  | answered _ _ _ => exact .inl rfl
  | stimulus _ _ _ _ _ _ _ hs => exact .inr (.inl hs)
  | deq _ _ _ => exact .inr (.inl rfl)
  | pubOk _ => exact .inr (.inl rfl)
  | pubFail _ => exact .inr (.inl rfl)
  | init _ => exact .inr (.inr rfl)
  | deinit _ => exact .inr (.inr rfl)
  | access _ _ _ => exact .inr (.inr rfl)
  | resetStats => exact .inr (.inl rfl)

/-- Settles O51: silence and `Ok` are no errors, so the move wrote the result port alone (R222). -/
theorem errorsWriteNothing : Obligations.ErrorsWriteNothing := by
  intro s t i r h hresp hr
  rcases (exec_move h).respond_or_noError with ht | hsilent | hok
  · rwa [hresp] at ht
  · cases hresp.symm.trans hsilent
  · cases hresp.symm.trans hok
    exact absurd rfl hr

end Sys2Proof.Machine
end

section
/-! SUPPORT. The decoder and the encoder (30_encoding.md rules R81, R82, R88, R91), each the other's inverse, and the step that
runs what the decoder reads (00_scope.md rule R14, 20_memory.md rule R70). -/

namespace Sys2Proof.Machine

/-! ## Decoding what was encoded -/

/-- Every operation's word says what `Laws.Encoding.Statement` asks of it. -/
theorem encoding_statement (i : Instr) : Laws.Encoding.Statement i := by
  cases i with
  | edgeAb n code => exact Laws.Encoding.edgeAb n code
  | wp n w => exact Laws.Encoding.wp n w
  | edgeBtn n lvl now => exact Laws.Encoding.edgeBtn n lvl now
  | deq => exact Laws.Encoding.deq
  | pub answer free => exact Laws.Encoding.pub answer free
  | init cfg plat lvl0 now => exact Laws.Encoding.init cfg plat lvl0 now
  | deinit n => exact Laws.Encoding.deinit n
  | set n p => exact Laws.Encoding.set n p
  | get n => exact Laws.Encoding.get n
  | reset n => exact Laws.Encoding.reset n
  | reinit n min2 max2 step2 => exact Laws.Encoding.reinit n min2 max2 step2
  | getStats => exact Laws.Encoding.getStats
  | resetStats => exact Laws.Encoding.resetStats

@[simp] theorem strategy_ofBit_bit (x : Strategy) : Strategy.ofBit x.bit = x := by cases x <;> rfl

@[simp] theorem watchPoint_ofBit_bit (x : WatchPoint) : WatchPoint.ofBit x.bit = x := by cases x <;> rfl

@[simp] theorem answer_ofBit_bit (x : Answer) : Answer.ofBit x.bit = x := by cases x <;> rfl

@[simp] theorem flagOfBit_bitOfFlag (x : Bool) : flagOfBit (bitOfFlag x) = x := by cases x <;> rfl

/-- The level code below its reserved bits (R82). -/
theorem code_field (code : BitVec 2) : (0#14 ++ code : BitVec 16).extractLsb' 0 2 = code :=
  BitVec.extractLsb'_append_eq_right

/-- A one-bit operand below its reserved bits (R82). -/
theorem bit_field (b : BitVec 1) : (0#15 ++ b : BitVec 16).extractLsb' 0 1 = b :=
  BitVec.extractLsb'_append_eq_right

/-- The four one-bit fields of `INIT`'s word, below its reserved bits (R82). -/
theorem init_fields (d c b a : BitVec 1) :
    (0#12 ++ d ++ c ++ b ++ a : BitVec 16).extractLsb' 3 1 = d ∧
      (0#12 ++ d ++ c ++ b ++ a : BitVec 16).extractLsb' 2 1 = c ∧
      (0#12 ++ d ++ c ++ b ++ a : BitVec 16).extractLsb' 1 1 = b ∧
      (0#12 ++ d ++ c ++ b ++ a : BitVec 16).extractLsb' 0 1 = a := by
  revert d c b a
  decide

/-- A word with the fields of an operation, followed by its operand values, is read as that operation (R82). -/
theorem decodeOperands_of_fields {i : Instr} {w : BitVec 32} (hn : wordNumber w = i.number.getD 0)
    (himm : wordImm w = i.imm) (rest : List Item) : decodeOperands i.opcode w (i.operands ++ rest) = .ok (i, rest) := by
  cases i with
  | init cfg plat lvl0 now =>
    obtain ⟨h3, h2, h1, h0⟩ := init_fields lvl0 plat.bit (bitOfFlag cfg.pullup) cfg.strategy.bit
    simp only [Instr.opcode, Instr.operands, List.cons_append, List.nil_append, decodeOperands, decodeInit, immBit, hn, himm,
      Instr.imm, h3, h2, h1, h0, answer_ofBit_bit, flagOfBit_bitOfFlag, strategy_ofBit_bit, Instr.number, Option.getD_some]
  | edgeAb n code => simp [Instr.opcode, Instr.operands, decodeOperands, hn, himm, Instr.imm, Instr.number, code_field]
  | wp n x => simp [Instr.opcode, Instr.operands, decodeOperands, immBit, hn, himm, Instr.imm, Instr.number, bit_field]
  | edgeBtn n lvl now =>
    simp [Instr.opcode, Instr.operands, decodeOperands, immBit, hn, himm, Instr.imm, Instr.number, bit_field]
  | pub answer free => simp [Instr.opcode, Instr.operands, decodeOperands, immBit, himm, Instr.imm, bit_field]
  | _ => simp [Instr.opcode, Instr.operands, decodeOperands, hn, Instr.number]

/-- Settles O1: the word selects its own row, and its fields and operand values read back (R81, R82, R88). -/
theorem decodeInvertsEncode : Obligations.DecodeInvertsEncode := by
  intro i rest hwf
  obtain ⟨hsel, hn, himm, -⟩ := encoding_statement i hwf
  rw [encode, List.cons_append, decode, hsel]
  exact decodeOperands_of_fields hn himm rest

/-! ## Encoding what was decoded -/

/-- The bits of `n` that a row of the opcode map fixes, to zero (R82, R88). -/
def numberMask : Opcode → BitVec 8
  | .deq | .pub | .getStats | .resetStats => 0xFF#8
  | .edgeAb | .wp | .edgeBtn | .init | .deinit | .set | .get | .reset | .reinit => 0#8

/-- The bits of `imm` that a row of the opcode map fixes, to zero: the reserved ones (R82, R88). -/
def reservedMask : Opcode → BitVec 16
  | .edgeAb => 0xFFFC#16
  | .wp | .edgeBtn | .pub => 0xFFFE#16
  | .init => 0xFFF0#16
  | .deq | .deinit | .set | .get | .reset | .reinit | .getStats | .resetStats => 0xFFFF#16

/-- Each row of the opcode map fixes the opcode byte, and to zero the bits of the two masks (R88). -/
theorem opcodeRows_fields : ∀ r ∈ opcodeRows,
    r.mask = 0xFF#8 ++ numberMask r.opcode ++ reservedMask r.opcode ∧ r.pattern = r.opcode.code ++ 0#8 ++ 0#16 := by
  decide

/-- A word is its three fields, put together (R81). -/
theorem word_eq_fields (w : BitVec 32) : w.extractLsb' 24 8 ++ w.extractLsb' 16 8 ++ wordImm w = w := by
  have htop : w.extractLsb' 24 8 ++ w.extractLsb' 16 8 = w.extractLsb' 16 16 :=
    BitVec.extractLsb'_append_extractLsb'_eq_extractLsb' rfl
  rw [htop]
  exact BitVec.extractLsb'_append_extractLsb' (w := 16) (len := 16)

/-- Two words put together from fields are equal only when the fields are (R81). -/
theorem fields_injective {a a' b b' : BitVec 8} {c c' : BitVec 16} (h : a ++ b ++ c = a' ++ b' ++ c') :
    a = a' ∧ b = b' ∧ c = c' := by
  have hab : a ++ b = a' ++ b' := by
    simpa only [BitVec.extractLsb'_append_eq_left] using congrArg (BitVec.extractLsb' 16 16) h
  refine ⟨?_, ?_, ?_⟩
  · simpa only [BitVec.extractLsb'_append_eq_left] using congrArg (BitVec.extractLsb' 8 8) hab
  · simpa only [BitVec.extractLsb'_append_eq_right] using congrArg (BitVec.extractLsb' 0 8) hab
  · simpa only [BitVec.extractLsb'_append_eq_right] using congrArg (BitVec.extractLsb' 0 16) h

/-- A word of a row has the row's opcode byte, and zeros under its masks (R88). -/
theorem fields_of_row {w : BitVec 32} {r : OpcodeRow} (hr : r ∈ opcodeRows) (h : w &&& r.mask = r.pattern) :
    w.extractLsb' 24 8 = r.opcode.code ∧ w.extractLsb' 16 8 &&& numberMask r.opcode = 0#8 ∧
      wordImm w &&& reservedMask r.opcode = 0#16 := by
  obtain ⟨hmask, hpattern⟩ := opcodeRows_fields r hr
  rw [hmask, hpattern, ← word_eq_fields w, BitVec.and_append, BitVec.and_append] at h
  obtain ⟨hop, hnum, himm⟩ := fields_injective h
  exact ⟨(BitVec.and_allOnes (x := w.extractLsb' 24 8)).symm.trans hop, hnum, himm⟩

/-- Settles O3: a word of a row carries the row's opcode byte, and no two rows share one (R88). -/
theorem opcodeRowsDisjoint : Obligations.OpcodeRowsDisjoint := by
  intro w r r' hr hr' h h'
  have hcode : r.opcode.code = r'.opcode.code := (fields_of_row hr h).1.symm.trans (fields_of_row hr' h').1
  have hdistinct : ∀ x ∈ opcodeRows, ∀ y ∈ opcodeRows, x.opcode.code = y.opcode.code → x = y := by decide
  exact hdistinct r hr r' hr' hcode

/-- The opcode a word selects is that of a row the word belongs to (R88). -/
theorem row_of_selectOpcode {w : BitVec 32} {op : Opcode} (h : selectOpcode w = some op) :
    ∃ r ∈ opcodeRows, r.opcode = op ∧ w &&& r.mask = r.pattern := by
  unfold selectOpcode at h
  split at h
  · rename_i r hr
    exact ⟨r, List.mem_of_find?_eq_some hr, Option.some.inj h, by simpa [OpcodeRow.admits] using List.find?_some hr⟩
  · cases h

/-- Small operands under a mask of their high bits, all zero, are the low bits alone (R82). -/
theorem eq_zero_append {m k : Nat} {x mask : BitVec (m + k)} (hmask : mask.extractLsb' k m = BitVec.allOnes m)
    (h : x &&& mask = 0#(m + k)) : x = 0#m ++ x.extractLsb' 0 k := by
  have hhigh : x.extractLsb' k m = 0#m := by
    have hx := congrArg (BitVec.extractLsb' k m) h
    simpa [BitVec.extractLsb'_and, hmask] using hx
  rw [← hhigh, BitVec.extractLsb'_append_extractLsb']

@[simp] theorem strategy_bit_ofBit (b : BitVec 1) : (Strategy.ofBit b).bit = b := by revert b; decide

@[simp] theorem watchPoint_bit_ofBit (b : BitVec 1) : (WatchPoint.ofBit b).bit = b := by revert b; decide

@[simp] theorem answer_bit_ofBit (b : BitVec 1) : (Answer.ofBit b).bit = b := by revert b; decide

@[simp] theorem bitOfFlag_flagOfBit (b : BitVec 1) : bitOfFlag (flagOfBit b) = b := by revert b; decide

/-- The four one-bit fields of `INIT`'s word, put together again behind its reserved bits (R82). -/
theorem init_imm_of_fields {x : BitVec 16} (h : x &&& 0xFFF0#16 = 0#16) :
    0#12 ++ x.extractLsb' 3 1 ++ x.extractLsb' 2 1 ++ x.extractLsb' 1 1 ++ x.extractLsb' 0 1 = x := by
  rw [eq_zero_append (m := 12) (k := 4) (by decide) h]
  generalize x.extractLsb' 0 4 = low
  revert low
  decide

/-- The number field always fits its eight bits (R81). -/
theorem numberFits_wordNumber (w : BitVec 32) : numberFits (wordNumber w) = true :=
  decide_eq_true (w.extractLsb' 16 8).isLt

/-- The number field is zero where the row fixes all its bits (R82, R88). -/
theorem wordNumber_eq_zero {w : BitVec 32} (h : w.extractLsb' 16 8 &&& 0xFF#8 = 0#8) : wordNumber w = 0 := by
  have hzero : w.extractLsb' 16 8 = 0#8 := (BitVec.and_allOnes (x := w.extractLsb' 16 8)).symm.trans h
  rw [wordNumber, hzero]
  rfl

/-- An operation read from a word of the row of `op` has that opcode and the number and small operands of the word, and its
operand values are the items read (R82). -/
theorem fields_of_decodeOperands {op : Opcode} {w : BitVec 32} {items rest : List Item} {i : Instr}
    (hnum : w.extractLsb' 16 8 &&& numberMask op = 0#8) (himm : wordImm w &&& reservedMask op = 0#16)
    (h : decodeOperands op w items = .ok (i, rest)) :
    i.opcode = op ∧ i.wellFormed = true ∧ i.number.getD 0 = wordNumber w ∧ i.imm = wordImm w ∧
      i.operands ++ rest = items := by
  have hfits := numberFits_wordNumber w
  have hplain (h0 : wordImm w &&& 0xFFFF#16 = 0#16) : 0#16 = wordImm w :=
    h0.symm.trans (BitVec.and_allOnes (x := wordImm w))
  have hbit (h1 : wordImm w &&& 0xFFFE#16 = 0#16) : 0#15 ++ immBit w 0 = wordImm w :=
    (eq_zero_append (m := 15) (k := 1) (by decide) h1).symm
  cases op with
  | edgeAb =>
    cases h
    exact ⟨rfl, hfits, rfl, (eq_zero_append (m := 14) (k := 2) (by decide) himm).symm, rfl⟩
  | wp =>
    cases h
    exact ⟨rfl, hfits, rfl, by rw [Instr.imm, watchPoint_bit_ofBit, hbit himm], rfl⟩
  | edgeBtn =>
    simp only [decodeOperands] at h
    split at h <;> cases h
    exact ⟨rfl, hfits, rfl, hbit himm, rfl⟩
  | deq =>
    cases h
    exact ⟨rfl, rfl, (wordNumber_eq_zero hnum).symm, hplain himm, rfl⟩
  | pub =>
    simp only [decodeOperands] at h
    split at h <;> cases h
    exact ⟨rfl, rfl, (wordNumber_eq_zero hnum).symm, by rw [Instr.imm, answer_bit_ofBit, hbit himm], rfl⟩
  | init =>
    simp only [decodeOperands, decodeInit] at h
    split at h <;> cases h
    refine ⟨rfl, hfits, rfl, ?_, rfl⟩
    rw [Instr.imm, answer_bit_ofBit, bitOfFlag_flagOfBit, strategy_bit_ofBit]
    exact init_imm_of_fields himm
  | deinit | get | reset =>
    cases h
    exact ⟨rfl, hfits, rfl, hplain himm, rfl⟩
  | set | reinit =>
    simp only [decodeOperands] at h
    split at h <;> cases h
    exact ⟨rfl, hfits, rfl, hplain himm, rfl⟩
  | getStats | resetStats =>
    cases h
    exact ⟨rfl, rfl, (wordNumber_eq_zero hnum).symm, hplain himm, rfl⟩

/-- Settles O2: the row fixes the opcode byte and the reserved bits, and what is read from the rest encodes to it again
(R81, R82, R88). -/
theorem decodedItemsReencode : Obligations.DecodedItemsReencode := by
  intro items rest i h
  unfold decode at h
  split at h
  · cases h
  · rename_i w tail
    split at h
    · rename_i op hsel
      obtain ⟨r, hr, rfl, hrow⟩ := row_of_selectOpcode hsel
      obtain ⟨hcode, hnum, himm⟩ := fields_of_row hr hrow
      obtain ⟨hop, hwf, hn, hi, hoperands⟩ := fields_of_decodeOperands hnum himm h
      refine ⟨hwf, ?_⟩
      have hword : encodeWord i = w := by
        rw [encodeWord, hop, hn, hi, ← hcode, wordNumber, BitVec.ofNat_toNat, BitVec.setWidth_eq]
        exact word_eq_fields w
      rw [encode, List.cons_append, hword, hoperands]
    · cases h
  · cases h
  · cases h

/-! ## The step -/

/-- A word that no row admits selects no operation (R91). -/
theorem selectOpcode_eq_none {w : BitVec 32} (h : ∀ r ∈ opcodeRows, w &&& r.mask ≠ r.pattern) : selectOpcode w = none := by
  cases hsel : selectOpcode w with
  | none => rfl
  | some op =>
    obtain ⟨r, hr, -, hrow⟩ := row_of_selectOpcode hsel
    exact absurd hrow (h r hr)

/-- Settles O4: a word without a row is refused by the decoder, and so by the step (R91). -/
theorem unmatchedWordRefused : Obligations.UnmatchedWordRefused := by
  intro s w rest hs h
  have hdecode : decode s.stim = .error (.illegalWord w) := by rw [hs, decode, selectOpcode_eq_none h]
  exact ⟨hdecode, step_refused hdecode⟩

/-- Settles O5, by running the decoder on the nine sequences. -/
theorem specWordsDecode : Obligations.SpecWordsDecode := by
  unfold Obligations.SpecWordsDecode
  decide +kernel

/-- Settles O6: one turn of the step, by what the decoder and the operation answer (R14, R70, R91). -/
theorem stepRunsDecodedInstruction : Obligations.StepRunsDecodedInstruction := by
  intro s
  refine ⟨fun i rest hd hne => ?_, fun i rest hd hdis => ?_, fun why hd => step_refused hd⟩
  · exact (step_decoded hd).trans (unlessDisabled_of_ne hne)
  · rw [step_decoded hd, State.advance, hdis, unlessDisabled_disabled]

/-- Settles O7: what stands at the head of the stream decodes to the operation encoded there (R14, R81). -/
theorem stepRunsEncodedOperation : Obligations.StepRunsEncodedOperation := by
  intro s i rest hwf hs
  obtain ⟨hruns, hpasses, -⟩ := stepRunsDecodedInstruction s
  have hd : decode s.stim = .ok (i, rest) := by rw [hs, decodeInvertsEncode i rest hwf]
  exact ⟨hruns i rest hd, hpasses i rest hd⟩

end Sys2Proof.Machine
end

section
/-! SUPPORT. What an operation can answer (00_scope.md rule R14, 30_encoding.md rule R90, 45_fifo_consumer.md rule R173):
disabled ones are refused, enabled ones are not, and a fault is an offered event without a queue. -/

namespace Sys2Proof.Machine

/-! ## When an operation is enabled -/

/-- A row is selected exactly by a state nibble that is not reserved (R29, R90). -/
theorem rowOf_isSome {st : BitVec 4} : (∃ row, rowOf st = some row) ↔ st.toNat ≤ 5 := by
  constructor
  · rintro ⟨row, h⟩
    by_contra hgt
    rw [rowOf_eq_none (not_le.1 hgt)] at h
    cases h
  · exact fun h => ⟨⟨st.toNat, Nat.lt_succ_of_le h⟩, rowOf_eq rfl⟩

/-- `EDGE_AB`: a live Strategy A encoder with a legal state nibble (R90, R104). -/
theorem enabled_edgeAb_iff {s : State} {n : Nat} {code : BitVec 2} :
    enabled (.edgeAb n code) s = true ↔ ∃ r, s.inst? n = some r ∧ r.strategy = .a ∧ r.st.toNat ≤ 5 := by
  cases h : s.inst? n with
  | none => simp [enabled, h]
  | some r => simp [enabled_edgeAb_live h]

/-- `WP`: a live Strategy B encoder (R122). -/
theorem enabled_wp_iff {s : State} {n : Nat} {w : WatchPoint} :
    enabled (.wp n w) s = true ↔ ∃ r, s.inst? n = some r ∧ r.strategy = .b := by
  cases h : s.inst? n with
  | none => simp [enabled, h]
  | some r => simp [enabled_wp_live h]

/-- `EDGE_BTN`: a live encoder with a button (R136). -/
theorem enabled_edgeBtn_iff {s : State} {n : Nat} {lvl : Level} {now : Nat} :
    enabled (.edgeBtn n lvl now) s = true ↔ ∃ r, s.inst? n = some r ∧ r.pinBtn ≠ s.config.pinNone := by
  cases h : s.inst? n with
  | none => simp [enabled, h]
  | some r => simp [enabled_edgeBtn_live h]

/-- `DEQ`: the consumer waits and the queue is not empty (R175). -/
theorem enabled_deq_iff {s : State} : enabled .deq s = true ↔ s.cons = .wait ∧ s.queued ≠ [] := by
  cases hc : s.cons <;> cases hf : s.fifo <;> simp [enabled, State.queued, hc, hf]

/-- `PUB`: an event is held (R177). -/
theorem enabled_pub_iff {s : State} {answer : Answer} {free : Nat} :
    enabled (.pub answer free) s = true ↔ ∃ ev, s.cons = .hold ev := by
  cases hc : s.cons <;> simp [enabled, hc]

/-- A host command is always enabled (R14, R72). -/
theorem enabled_of_caller {i : Instr} (h : contextOf i = .caller) (s : State) : enabled i s = true := by
  cases i with
  | edgeAb | wp | edgeBtn | deq | pub => cases h
  | _ => rfl

/-- The ways an operation can offer an event, for the register set `r` of the encoder `n` (R104, R122, R136). -/
inductive Offers (s : State) (n : Nat) (r : Inst) : Instr → Event → Prop where
  | edgeAb {code : BitVec 2} {row : Fin 6} {ev : Event} (ha : r.strategy = .a) (hrow : rowOf r.st = some row)
      (h : motionOffered r (edgeEntry s.config row code).dir = some ev) : Offers s n r (.edgeAb n code) ev
  | wp {w : WatchPoint} {ev : Event} (hb : r.strategy = .b)
      (h : motionOffered r (wpDir s.config.wpPolarity r.cnt w) = some ev) : Offers s n r (.wp n w) ev
  | edgeBtn {lvl : Level} {now : Nat} (hb : r.hasButton s.config = true) (h : Accepted r lvl now) :
      Offers s n r (.edgeBtn n lvl now) (.button r.num lvl)

/-- An event is offered in one of these ways, by an operation of a live encoder (R173). -/
theorem offers_of_offered {s : State} {i : Instr} {ev : Event} (h : s.offered i = some ev) :
    ∃ n r, s.inst? n = some r ∧ Offers s n r i ev := by
  cases i with
  | edgeAb n code =>
    simp only [State.offered] at h
    split at h
    · rename_i r hr
      split at h
      · exact ⟨n, r, hr, .edgeAb ‹_› ‹_› h⟩
      · cases h
    · cases h
  | wp n w =>
    simp only [State.offered] at h
    split at h
    · rename_i r hr
      split at h
      · exact ⟨n, r, hr, .wp ‹_› h⟩
      · cases h
    · cases h
  | edgeBtn n lvl now =>
    simp only [State.offered] at h
    split at h
    · rename_i r hr
      split at h
      · rename_i hacc
        cases h
        exact ⟨n, r, hr, .edgeBtn hacc.1 hacc.2⟩
      · cases h
    · cases h
  | _ => cases h

/-- Only an enabled operation offers an event (R104, R122, R136). -/
theorem enabled_of_offered {s : State} {i : Instr} {ev : Event} (h : s.offered i = some ev) : enabled i s = true := by
  obtain ⟨n, r, hr, ho⟩ := offers_of_offered h
  cases ho with
  | @edgeAb _ row _ ha hrow _ => exact enabled_edgeAb_iff.2 ⟨r, hr, ha, rowOf_isSome.1 ⟨row, hrow⟩⟩
  | wp hb _ => exact enabled_wp_iff.2 ⟨r, hr, hb⟩
  | edgeBtn hb _ => exact enabled_edgeBtn_iff.2 ⟨r, hr, by simpa [Inst.hasButton] using hb⟩

/-! ## The operations of a live encoder, and the disabled ones -/

/-- `EDGE_AB` on a live Strategy A encoder at a legal row (R104). -/
theorem exec_edgeAb_live {s : State} {n : Nat} {i : Inst} {row : Fin 6} (hi : s.inst? n = some i)
    (ha : i.strategy = .a) (hrow : rowOf i.st = some row) (code : BitVec 2) :
    exec (.edgeAb n code) s =
      if (edgeEntry s.config row code).dir = .none then
        .next ((s.setInst (i.setSt (zext4 (edgeEntry s.config row code).next))).respond .silent)
      else posStep (i.setSt (zext4 (edgeEntry s.config row code).next)) (edgeEntry s.config row code).dir
        ((s.setInst (i.setSt (zext4 (edgeEntry s.config row code).next))).respond .silent) := by
  simp [exec, execEdgeAb, hi, ha, hrow]

/-- `WP` on a live Strategy B encoder (R122). -/
theorem exec_wp_live {s : State} {n : Nat} {i : Inst} (hi : s.inst? n = some i) (hb : i.strategy = .b) (w : WatchPoint) :
    exec (.wp n w) s =
      posStep (i.setCnt 0) (wpDir s.config.wpPolarity i.cnt w) ((s.setInst (i.setCnt 0)).respond .silent) := by
  simp [exec, execWp, hi, hb]

/-- `EDGE_BTN` on a live encoder with a button (R136). -/
theorem exec_edgeBtn_live {s : State} {n : Nat} {i : Inst} (hi : s.inst? n = some i)
    (hb : i.pinBtn ≠ s.config.pinNone) (lvl : Level) (now : Nat) :
    exec (.edgeBtn n lvl now) s =
      if Accepted i lvl now then
        enqueue (.button i.num lvl) ((s.setInst ((i.setBtnLevel lvl).setBtnTime now)).respond .silent)
      else .next ((s.setInst (i.setBtnTime now)).respond .silent) := by
  have hbutton : i.hasButton s.config = true := by simpa [Inst.hasButton] using hb
  simp only [exec, execEdgeBtn, hi, hbutton, if_true]
  rfl

/-- `EDGE_AB` without a live Strategy A encoder is disabled (R101, R104). -/
theorem exec_edgeAb_disabled {s : State} {n : Nat} (h : ∀ i, s.inst? n = some i → i.strategy = .b) (code : BitVec 2) :
    exec (.edgeAb n code) s = .refused .disabled := by
  cases hi : s.inst? n with
  | none => simp [exec, execEdgeAb, hi, disabled]
  | some i => simp [exec, execEdgeAb, hi, h i hi, disabled]

/-- `EDGE_AB` on a reserved state nibble is refused by its name (R90). -/
theorem exec_edgeAb_reserved {s : State} {n : Nat} {i : Inst} (hi : s.inst? n = some i) (ha : i.strategy = .a)
    (hst : 5 < i.st.toNat) (code : BitVec 2) : exec (.edgeAb n code) s = .refused (.reservedNibble i.st) := by
  simp [exec, execEdgeAb, hi, ha, rowOf_eq_none hst]

/-- `WP` without a live Strategy B encoder is disabled (R122, R125). -/
theorem exec_wp_disabled {s : State} {n : Nat} (h : ∀ i, s.inst? n = some i → i.strategy = .a) (w : WatchPoint) :
    exec (.wp n w) s = .refused .disabled := by
  cases hi : s.inst? n with
  | none => simp [exec, execWp, hi, disabled]
  | some i => simp [exec, execWp, hi, h i hi, disabled]

/-- `EDGE_BTN` without a live encoder that has a button is disabled (R136, R142). -/
theorem exec_edgeBtn_disabled {s : State} {n : Nat} (h : ∀ i, s.inst? n = some i → i.pinBtn = s.config.pinNone)
    (lvl : Level) (now : Nat) : exec (.edgeBtn n lvl now) s = .refused .disabled := by
  cases hi : s.inst? n with
  | none => simp [exec, execEdgeBtn, hi, disabled]
  | some i => simp [exec, execEdgeBtn, hi, Inst.hasButton, h i hi, disabled]

/-- `DEQ` is disabled unless the consumer waits and the queue is not empty (R175). -/
theorem exec_deq_disabled {s : State} (h : ¬ (s.cons = .wait ∧ s.queued ≠ [])) : exec .deq s = .refused .disabled := by
  simp only [exec, execDeq, disabled]
  split
  · rfl
  · rfl
  · rename_i hc
    split
    · rfl
    · rename_i f hf
      split
      · rfl
      · rename_i ev rest hq
        exact absurd ⟨hc, by simp [State.queued, hf, hq]⟩ h

/-- `PUB` is disabled unless an event is held (R177). -/
theorem exec_pub_disabled {s : State} (h : ∀ ev, s.cons ≠ .hold ev) (answer : Answer) (free : Nat) :
    exec (.pub answer free) s = .refused .disabled := by
  cases hc : s.cons with
  | absent => simp [exec, execPub, hc, disabled]
  | wait => simp [exec, execPub, hc, disabled]
  | hold ev => exact absurd hc (h ev)

/-- `DEQ` with the consumer waiting and an event queued (R175). -/
theorem exec_deq_waiting {s : State} {cap : Nat} {ev : Event} {rest : List Event} (hc : s.cons = .wait)
    (hf : s.fifo = some ⟨cap, ev :: rest⟩) :
    exec .deq s = .next ({ s with fifo := some ⟨cap, rest⟩, cons := .hold ev }.respond .silent) := by
  simp [exec, execDeq, hc, hf]

/-- `PUB` of a held event, answered `ok` (R177). -/
theorem exec_pub_ok {s : State} {ev : Event} (hc : s.cons = .hold ev) (free : Nat) :
    exec (.pub .ok free) s =
      .next ({ s with minFree := lowWater s.minFree free, cons := .wait, bus := s.bus ++ [ev] }.respond .silent) := by
  simp [exec, execPub, hc, State.respond]

/-- `PUB` of a held event, answered `fail` (R177). -/
theorem exec_pub_fail {s : State} {ev : Event} (hc : s.cons = .hold ev) (free : Nat) :
    exec (.pub .fail free) s =
      .next ({ s with minFree := lowWater s.minFree free, cons := .wait, pubFail := s.pubFail + 1 }.respond .silent) := by
  simp [exec, execPub, hc, State.respond]

/-- An operation that is not enabled is refused: as disabled, or for a reserved state nibble (R14, R90). -/
theorem exec_of_not_enabled {s : State} {i : Instr} (h : enabled i s = false) :
    exec i s = .refused .disabled ∨
      ∃ n code r, i = .edgeAb n code ∧ s.inst? n = some r ∧ 5 < r.st.toNat ∧
        exec i s = .refused (.reservedNibble r.st) := by
  have hne : ¬ enabled i s = true := by simp [h]
  cases i with
  | edgeAb n code =>
    rw [enabled_edgeAb_iff] at hne
    by_cases hlive : ∃ r, s.inst? n = some r ∧ r.strategy = .a
    · obtain ⟨r, hr, ha⟩ := hlive
      have hst : 5 < r.st.toNat := not_le.1 fun hle => hne ⟨r, hr, ha, hle⟩
      exact .inr ⟨n, code, r, rfl, hr, hst, exec_edgeAb_reserved hr ha hst code⟩
    · refine .inl (exec_edgeAb_disabled (fun r hr => ?_) code)
      cases hs : r.strategy with
      | a => exact absurd ⟨r, hr, hs⟩ hlive
      | b => rfl
  | wp n w =>
    rw [enabled_wp_iff] at hne
    refine .inl (exec_wp_disabled (fun r hr => ?_) w)
    cases hs : r.strategy with
    | a => rfl
    | b => exact absurd ⟨r, hr, hs⟩ hne
  | edgeBtn n lvl now =>
    rw [enabled_edgeBtn_iff] at hne
    exact .inl (exec_edgeBtn_disabled (fun r hr => by_contra fun hb => hne ⟨r, hr, hb⟩) lvl now)
  | deq => exact .inl (exec_deq_disabled (mt enabled_deq_iff.2 hne))
  | pub answer free => exact .inl (exec_pub_disabled (fun ev hc => hne (enabled_pub_iff.2 ⟨ev, hc⟩)) answer free)
  | _ => exact absurd (enabled_of_caller rfl s) hne

/-! ## What an enabled operation answers -/

/-- A host command answers a next state (R14, R72). -/
theorem exec_caller_completes {i : Instr} (h : contextOf i = .caller) (s : State) : ∃ t, exec i s = .next t := by
  cases i with
  | edgeAb | wp | edgeBtn | deq | pub => cases h
  | init cfg plat lvl0 now =>
    by_cases hfail : InitCheckFails s cfg
    · exact ⟨_, exec_init_invalid hfail plat lvl0 now⟩
    · cases plat with
      | ok => exact ⟨_, exec_init_ok hfail lvl0 now⟩
      | fail => exact ⟨_, exec_init_refused hfail lvl0 now⟩
  | deinit n =>
    cases hr : s.inst? n with
    | none => exact ⟨_, exec_deinit_dead hr⟩
    | some r => exact ⟨_, exec_deinit_live hr⟩
  | set n p =>
    cases hr : s.inst? n with
    | none => exact ⟨_, exec_set_dead hr p⟩
    | some r =>
      rw [exec_set_live hr]
      split <;> exact ⟨_, rfl⟩
  | get n =>
    cases hr : s.inst? n with
    | none => exact ⟨_, exec_get_dead hr⟩
    | some r => exact ⟨s.respond (.position r.pos), by simp [exec, execGet, hr]⟩
  | reset n =>
    cases hr : s.inst? n with
    | none => exact ⟨_, exec_reset_dead hr⟩
    | some r => exact ⟨_, exec_reset_live hr⟩
  | reinit n min2 max2 step2 =>
    cases hr : s.inst? n with
    | none => exact ⟨_, exec_reinit_dead hr min2 max2 step2⟩
    | some r =>
      rw [exec_reinit_live hr]
      split <;> exact ⟨_, rfl⟩
  | getStats => exact ⟨_, rfl⟩
  | resetStats => exact ⟨_, rfl⟩

/-- `enqueue` completes, or there is no queue and it faults (R171, R173). -/
theorem enqueue_total (ev : Event) (s : State) :
    (∃ t, enqueue ev s = .next t) ∨ s.fifo = none ∧ enqueue ev s = .fault .queueAbsent := by
  cases hf : s.fifo with
  | none => exact .inr ⟨rfl, by simp [enqueue, hf]⟩
  | some f =>
    obtain ⟨t, ht, -⟩ := enqueue_completes ev hf
    exact .inl ⟨t, ht⟩

/-- `pos_step` completes, or it offers an event, there is no queue, and it faults (R151, R173). -/
theorem posStep_total (i : Inst) (d : Dir) (s : State) :
    (∃ t, posStep i d s = .next t) ∨
      s.fifo = none ∧ motionOffered i d ≠ none ∧ posStep i d s = .fault .queueAbsent := by
  by_cases h : stepTarget i d = i.pos
  · exact .inl ⟨_, if_pos h⟩
  · rcases enqueue_total (.motion i.num (stepTarget i d)) (s.setInst (i.setPos (stepTarget i d))) with
      ⟨t, ht⟩ | ⟨hf, hfault⟩
    · exact .inl ⟨t, (if_neg h).trans ht⟩
    · exact .inr ⟨hf, by simp [motionOffered, h], (if_neg h).trans hfault⟩

/-- An enabled operation completes, or it offers an event, there is no queue, and it faults (R14, R173). -/
theorem exec_of_enabled {s : State} {i : Instr} (h : enabled i s = true) :
    (∃ t, exec i s = .next t) ∨ s.fifo = none ∧ s.offered i ≠ none ∧ exec i s = .fault .queueAbsent := by
  cases i with
  | edgeAb n code =>
    obtain ⟨r, hr, ha, hst⟩ := enabled_edgeAb_iff.1 h
    obtain ⟨row, hrow⟩ := rowOf_isSome.2 hst
    rw [exec_edgeAb_live hr ha hrow]
    split
    · exact .inl ⟨_, rfl⟩
    · refine (posStep_total _ _ _).imp id fun ⟨hf, ho, hfault⟩ => ⟨hf, ?_, hfault⟩
      rw [motionOffered_setSt] at ho
      simpa only [State.offered, hr, ha, hrow] using ho
  | wp n w =>
    obtain ⟨r, hr, hb⟩ := enabled_wp_iff.1 h
    rw [exec_wp_live hr hb]
    refine (posStep_total _ _ _).imp id fun ⟨hf, ho, hfault⟩ => ⟨hf, ?_, hfault⟩
    rw [motionOffered_setCnt] at ho
    simpa only [State.offered, hr, hb] using ho
  | edgeBtn n lvl now =>
    obtain ⟨r, hr, hb⟩ := enabled_edgeBtn_iff.1 h
    rw [exec_edgeBtn_live hr hb]
    split
    · rename_i hacc
      refine (enqueue_total _ _).imp id fun ⟨hf, hfault⟩ => ⟨hf, ?_, hfault⟩
      obtain ⟨htime, hlvl⟩ := hacc
      simp [State.offered, hr, Inst.hasButton, hb, elapsed, htime, hlvl]
    · exact .inl ⟨_, rfl⟩
  | deq =>
    obtain ⟨hc, hq⟩ := enabled_deq_iff.1 h
    match hf : s.fifo with
    | none => simp [State.queued, hf] at hq
    | some ⟨cap, []⟩ => simp [State.queued, hf] at hq
    | some ⟨cap, ev :: rest⟩ => exact .inl ⟨_, exec_deq_waiting hc hf⟩
  | pub answer free =>
    obtain ⟨ev, hc⟩ := enabled_pub_iff.1 h
    cases answer with
    | ok => exact .inl ⟨_, exec_pub_ok hc free⟩
    | fail => exact .inl ⟨_, exec_pub_fail hc free⟩
  | _ => exact .inl (exec_caller_completes rfl s)

/-- An enabled operation completes when there is a queue or it offers nothing (R14, R173). -/
theorem exec_completes {s : State} {i : Instr} (h : enabled i s = true) (hq : s.offered i = none ∨ s.fifo ≠ none) :
    ∃ t, exec i s = .next t := by
  rcases exec_of_enabled h with hnext | ⟨hf, ho, -⟩
  · exact hnext
  · rcases hq with hq | hq
    · exact absurd hq ho
    · exact absurd hf hq

/-- An operation that is refused is not enabled (R14). -/
theorem not_enabled_of_refused {s : State} {i : Instr} {r : Refusal} (h : exec i s = .refused r) : enabled i s = false := by
  cases he : enabled i s with
  | false => rfl
  | true => rcases exec_of_enabled he with ⟨t, ht⟩ | ⟨-, -, ht⟩ <;> cases h.symm.trans ht

/-- An operation that is refused offers no event (R14). -/
theorem offered_of_refused {s : State} {i : Instr} {r : Refusal} (h : exec i s = .refused r) : s.offered i = none := by
  cases ho : s.offered i with
  | none => rfl
  | some ev => cases (not_enabled_of_refused h).symm.trans (enabled_of_offered ho)

/-- An operation that makes a transition is enabled (R14). -/
theorem enabled_of_next {s t : State} {i : Instr} (h : exec i s = .next t) : enabled i s = true := by
  by_contra hne
  rcases exec_of_not_enabled (Bool.eq_false_of_not_eq_true hne) with hd | ⟨_, _, _, _, _, _, hd⟩ <;> cases h.symm.trans hd

/-- Settles O13: each operation that is not enabled is refused, so one that makes a transition is enabled (R14). -/
theorem onlyEnabledOperationsTransition : Obligations.OnlyEnabledOperationsTransition :=
  fun _ _ => ⟨fun _ h => enabled_of_next h, exec_of_not_enabled⟩

/-- An encoder is live only with the queue there (R55, R173). -/
theorem fifo_of_live {s : State} {n : Nat} {r : Inst} (hinv : s.Inv) (hr : s.inst? n = some r) : s.fifo ≠ none := by
  obtain ⟨-, -, -, hfifo, -, -⟩ := hinv
  intro hf
  have hmem := State.inst?_mem hr
  rw [hfifo.1 hf] at hmem
  cases hmem

/-- Every operation that offers an event names a live encoder, so under the invariants the queue is there (R173). -/
theorem queue_there {s : State} (hinv : s.Inv) (i : Instr) : s.offered i = none ∨ s.fifo ≠ none := by
  cases ho : s.offered i with
  | none => exact .inl rfl
  | some ev =>
    obtain ⟨n, r, hr, -⟩ := offers_of_offered ho
    exact .inr (fifo_of_live hinv hr)

/-- Settles O12: under the invariants an operation that offers an event finds the queue, so no enabled one faults (R14, R173). -/
theorem everyOperationCompletes : Obligations.EveryOperationCompletes := by
  intro s i hinv
  have hcompletes (he : enabled i s = true) : ∃ t, exec i s = .next t := exec_completes he (queue_there hinv i)
  refine ⟨hcompletes, fun r hfault => ?_, fun hc => enabled_of_caller hc s⟩
  cases he : enabled i s with
  | true =>
    obtain ⟨t, ht⟩ := hcompletes he
    cases hfault.symm.trans ht
  | false => rcases exec_of_not_enabled he with hd | ⟨_, _, _, _, _, _, hd⟩ <;> cases hfault.symm.trans hd

/-- Settles O14: the sources of each interrupt-side operation exist by the strategy and the button pin, and the invariants
exclude the reserved state nibbles (R225). -/
theorem interruptOperationsHaveSources : Obligations.InterruptOperationsHaveSources := by
  intro s i n hinv hc hn
  obtain ⟨-, hvalid, -⟩ := hinv
  cases i with
  | edgeAb m code =>
    cases hn
    have hst {r : Inst} (hr : s.inst? n = some r) : r.st.toNat ≤ 5 := by
      obtain ⟨-, -, -, -, hst, -⟩ := hvalid r (State.inst?_mem hr)
      exact hst
    rw [enabled_edgeAb_iff]
    exact exists_congr fun r => and_congr_right fun hr => by simp [sourcesOf, Inst.hasSource, hst hr]
  | wp m w =>
    cases hn
    rw [enabled_wp_iff]
    refine exists_congr fun r => and_congr_right fun hr => ?_
    cases w <;> simp [sourcesOf, Inst.hasSource]
  | edgeBtn m lvl now =>
    cases hn
    rw [enabled_edgeBtn_iff]
    exact exists_congr fun r => and_congr_right fun hr => by simp [sourcesOf, Inst.hasSource, Inst.hasButton]
  | deq | pub => cases hn
  | _ => cases hc

/-- What enables an operation is not the stimulus stream. -/
@[simp] theorem enabled_advance (i : Instr) (s : State) (rest : List Item) : enabled i (s.advance rest) = enabled i s := by
  cases i <;> rfl

/-- A disabled operation is disabled whatever stimuli follow (R14). -/
theorem disabled_advance {s : State} {i : Instr} (h : exec i s = .refused .disabled) (rest : List Item) :
    exec i (s.advance rest) = .refused .disabled := by
  rcases exec_of_not_enabled ((enabled_advance i s rest).trans (not_enabled_of_refused h)) with
    hd | ⟨n, code, r, rfl, hr, hst, -⟩
  · exact hd
  · rw [State.advance_inst?] at hr
    refine exec_edgeAb_disabled (fun r' hr' => ?_) code
    cases hr.symm.trans hr'
    cases hs : r.strategy with
    | a => cases h.symm.trans (exec_edgeAb_reserved hr hs hst code)
    | b => rfl

/-- Settles O15: one case for each `enabled when` line, and the step behind a disabled operation (R14). -/
theorem disabledOperationsPassedOver : Obligations.DisabledOperationsPassedOver := by
  intro s
  refine ⟨fun n code h => exec_edgeAb_disabled h code, fun n w h => exec_wp_disabled h w,
    fun n lvl now h => exec_edgeBtn_disabled h lvl now, exec_deq_disabled,
    fun answer free h => exec_pub_disabled h answer free, fun i rest hwf hd => ?passed⟩
  case passed =>
    obtain ⟨-, hpasses⟩ := stepRunsEncodedOperation { s with stim := encode i ++ rest } i rest hwf rfl
    exact hpasses (disabled_advance hd rest)

/-- Settles O18 (R90). -/
theorem edgeAbReservedNibbleRefused : Obligations.EdgeAbReservedNibbleRefused :=
  fun _ _ code _ hi ha hst => exec_edgeAb_reserved hi ha hst code

/-- Settles O37 (R175). -/
theorem deqTakesOldest : Obligations.DeqTakesOldest :=
  fun _ _ _ _ hc hf => exec_deq_waiting hc hf

/-- Settles O38: one case for each answer of the bus; `lowWater` is the minimum in both (R177). -/
theorem pubPublishesOrCounts : Obligations.PubPublishesOrCounts := by
  intro s ev answer free hc
  have hlow : lowWater s.minFree free = some (match s.minFree with | none => free | some m => min m free) := by
    cases s.minFree <;> rfl
  cases answer with
  | ok => rw [exec_pub_ok hc, hlow]; rfl
  | fail => rw [exec_pub_fail hc, hlow]; rfl

end Sys2Proof.Machine
end

section
/-! SUPPORT. The invariants of the rules (10_state.md rules R36, R55), and the configuration checks of `INIT`: they hold at
power-on, and every step keeps them. -/

namespace Sys2Proof.Machine

/-! ## What an operation may put in the registry -/

/-- A stimulus keeps the number of its encoder (R21). -/
theorem Wrote.num {s : State} {i : Instr} {r r' : Inst} (h : Wrote s r i r') : r'.num = r.num := by
  cases h <;> rfl

/-- A position command keeps the number of its encoder (R21). -/
theorem Accessed.num {i : Instr} {r r' : Inst} (h : Accessed r i r') : r'.num = r.num := by
  cases h <;> rfl

/-- An `INIT` whose validation says no has passed every check (R191). -/
theorem checksPass_of_valid {s : State} {cfg : InitCfg} (h : initInvalid s.config s.reg cfg = false) :
    ¬ InitCheckFails s cfg := by
  rw [← initInvalid_iff, h]
  exact Bool.false_ne_true

/-- Everything an operation can do to the registry: nothing, one register set written back, one created, one removed. -/
theorem Move.registry {s t : State} {i : Instr} (h : Move s i t) :
    t.reg = s.reg ∨ (∃ r ∈ s.reg, ∃ r', (Wrote s r i r' ∨ Accessed r i r') ∧ t.reg = putInst r' s.reg) ∨
      (∃ cfg lvl0 now, i = .init cfg .ok lvl0 now ∧ ¬ InitCheckFails s cfg ∧
        t.reg = insertInst (createInst s.config cfg lvl0 now) s.reg) ∨
      ∃ n, t.reg = dropInst n s.reg := by
  cases h with
  | answered _ _ _ => exact .inl rfl
  | @stimulus _ _ _ r r' _ hr _ hw ht _ _ _ => exact .inr (.inl ⟨r, State.inst?_mem hr, r', .inl hw, ht⟩)
  | deq _ _ _ => exact .inl rfl
  | pubOk _ => exact .inl rfl
  | pubFail _ => exact .inl rfl
  | @init cfg lvl0 now hi =>
    exact .inr (.inr (.inl ⟨cfg, lvl0, now, rfl, checksPass_of_valid hi, by simp⟩))
  | @deinit n _ _ => exact .inr (.inr (.inr ⟨n, by simp⟩))
  | @access _ _ r r' _ hr ha => exact .inr (.inl ⟨r, State.inst?_mem hr, r', .inr ha, rfl⟩)
  | resetStats => exact .inl rfl

/-- Every register set after an operation was there before, or is the one written by it, or the one created. -/
theorem Move.mem_reg {s t : State} {i : Instr} (h : Move s i t) {j : Inst} (hj : j ∈ t.reg) :
    j ∈ s.reg ∨ (∃ r ∈ s.reg, Wrote s r i j ∨ Accessed r i j) ∨
      ∃ cfg lvl0 now, i = .init cfg .ok lvl0 now ∧ ¬ InitCheckFails s cfg ∧ j = createInst s.config cfg lvl0 now := by
  rcases h.registry with ht | ⟨r, hr, r', hw, ht⟩ | ⟨cfg, lvl0, now, hi, hpass, ht⟩ | ⟨n, ht⟩ <;> rw [ht] at hj
  · exact .inl hj
  · rcases mem_putInst hj with rfl | hj
    · exact .inr (.inl ⟨r, hr, hw⟩)
    · exact .inl hj
  · rcases mem_insertInst.1 hj with rfl | hj
    · exact .inr (.inr ⟨cfg, lvl0, now, hi, hpass, rfl⟩)
    · exact .inl hj
  · exact .inl (List.mem_filter.1 hj).1

/-- A stimulus keeps the invariants of its encoder (R36, R153). -/
theorem Wrote.valid {s : State} {i : Instr} {r r' : Inst} (h : Wrote s r i r') (hv : r.Valid) : r'.Valid := by
  have hdecoded {n : Nat} (ho : DecodesFor n i) : r'.Valid := by
    obtain ⟨-, -, -, -, -, hv'⟩ := h.decoded ho hv
    exact hv'
  cases h with
  | @edgeAb n code _ _ _ => exact hdecoded (.inl ⟨code, rfl⟩)
  | @wp n w _ => exact hdecoded (.inr ⟨w, rfl⟩)
  | accepted _ _ => exact hv
  | rejected _ _ => exact hv

/-- A position command keeps the invariants of its encoder (R36, R155, R158, R160). -/
theorem Accessed.valid {i : Instr} {r r' : Inst} (h : Accessed r i r') (hv : r.Valid) : r'.Valid := by
  obtain ⟨hlt, hstep, -, -, hrest⟩ := hv
  cases h with
  | set hlo hhi => exact ⟨hlt, hstep, hlo, hhi, hrest⟩
  | reset => exact ⟨hlt, hstep, (mid_between hlt).1.le, (mid_between hlt).2.le, hrest⟩
  | reinit hlt' hstep' => exact ⟨hlt', hstep', (mid_between hlt').1.le, (mid_between hlt').2.le, hrest⟩

/-- With every check of `INIT` passed, the new encoder meets the invariants (R36, R54), its number being of eight bits. -/
theorem createInst_valid {s : State} {cfg : InitCfg} (h : ¬ InitCheckFails s cfg) (hfits : numberFits cfg.num = true)
    (lvl0 : Level) (now : Nat) : (createInst s.config cfg lvl0 now).Valid := by
  simp only [InitCheckFails, not_or, not_not] at h
  obtain ⟨-, -, -, -, -, -, -, hlt, hstep, hnum, -, -⟩ := h
  exact ⟨hlt, hstep, (mid_between hlt).1.le, (mid_between hlt).2.le, Nat.zero_le _, rfl, Nat.one_le_iff_ne_zero.2 hnum,
    of_decide_eq_true hfits⟩

/-- With every check of `INIT` passed, the configuration the new encoder keeps is a checked one (R192). -/
theorem createInst_checked {s : State} {cfg : InitCfg} (h : ¬ InitCheckFails s cfg) (lvl0 : Level) (now : Nat) :
    (createInst s.config cfg lvl0 now).Checked s.config := by
  simp only [InitCheckFails, not_or, not_and, not_lt, not_le, ne_eq] at h
  obtain ⟨hprio, hstack, hqcap, hA, hB, hAB, hbtn, -⟩ := h
  exact ⟨hA, hB, hAB, or_iff_not_imp_left.2 hbtn, hprio, hstack, hqcap⟩

/-! ## The registry's order and size -/

@[simp] theorem length_putInst (i : Inst) (reg : List Inst) : (putInst i reg).length = reg.length := List.length_map _

@[simp] theorem putInst_eq_nil {i : Inst} {reg : List Inst} : putInst i reg = [] ↔ reg = [] := List.map_eq_nil_iff

@[simp] theorem insertInst_ne_nil (i : Inst) (reg : List Inst) : insertInst i reg ≠ [] := by
  intro h
  simpa using congrArg List.length h

/-- Every operation keeps the registry in rising order (R21, R40). -/
theorem Move.rising {s t : State} {i : Instr} (h : Move s i t) (hs : Rising s.reg) : Rising t.reg := by
  rcases h.registry with ht | ⟨_, _, _, _, ht⟩ | ⟨cfg, _, _, _, hpass, ht⟩ | ⟨_, ht⟩ <;> rw [ht]
  · exact hs
  · exact putInst_rising hs
  · exact insertInst_rising hs (State.inst?_eq_none.1 (inst?_of_checksPass hpass))
  · exact dropInst_rising hs

/-- No operation writes a parameter or the stimuli to come (R47, R70, R76). -/
theorem Move.context {s t : State} {i : Instr} (h : Move s i t) : SameContext s t := by
  cases h with
  | stimulus _ _ _ _ _ _ hk _ =>
    obtain ⟨-, -, -, -, hctx⟩ := hk
    exact hctx
  | @init cfg _ _ _ =>
    obtain ⟨-, -, hctx⟩ := openIfFirst_keepsRecords cfg.qcap s
    exact hctx
  | @deinit n _ _ =>
    obtain ⟨-, -, hctx⟩ := closeIfLast_keepsRecords (s.removeInst n)
    exact hctx
  | _ => exact ⟨rfl, rfl⟩

/-- No operation writes a parameter (R47, R76). -/
theorem Move.config {s t : State} {i : Instr} (h : Move s i t) : t.config = s.config := h.context.1

/-- With every check of `INIT` passed there is room for another encoder (R192). -/
theorem room_of_checksPass {s : State} {cfg : InitCfg} (h : ¬ InitCheckFails s cfg) :
    s.reg.length < s.config.maxInstances := by
  simp only [InitCheckFails, not_or, not_le] at h
  obtain ⟨-, -, -, -, -, -, -, -, -, -, -, hroom⟩ := h
  rwa [State.numbers, List.length_map] at hroom

/-- Every operation keeps the bound on the number of live encoders (R40, R192). -/
theorem Move.length_le {s t : State} {i : Instr} (h : Move s i t) (hs : s.reg.length ≤ s.config.maxInstances) :
    t.reg.length ≤ t.config.maxInstances := by
  rw [h.config]
  rcases h.registry with ht | ⟨_, _, _, _, ht⟩ | ⟨_, _, _, _, hpass, ht⟩ | ⟨_, ht⟩ <;> rw [ht]
  · exact hs
  · rwa [length_putInst]
  · rw [length_insertInst]
    exact room_of_checksPass hpass
  · exact (List.length_filter_le _ _).trans hs

/-! ## The queue and the consumer -/

/-- The queue is there exactly while an encoder is live, the consumer exactly while the queue is (R55, R190). -/
abbrev SharedWithEncoders (s : State) : Prop := (s.fifo = none ↔ s.reg = []) ∧ (s.cons = .absent ↔ s.fifo = none)

/-- No event is offered, or one is appended, or one is counted as dropped (R171, R172). -/
theorem Offered.appended_or_dropped {o : Option Event} {s t : State} (h : Offered o s t) :
    (o = none ∧ t.fifo = s.fifo ∧ t.qDrop = s.qDrop) ∨
      ∃ ev f, o = some ev ∧ s.fifo = some f ∧
        ((f.q.length < f.cap ∧ t.fifo = some ⟨f.cap, f.q ++ [ev]⟩ ∧ t.qDrop = s.qDrop) ∨
          (t.fifo = s.fifo ∧ t.qDrop = s.qDrop + 1)) := by
  cases o with
  | none => exact .inl ⟨rfl, h⟩
  | some ev =>
    obtain ⟨f, hf, hq⟩ := h
    refine .inr ⟨ev, f, rfl, hf, ?_⟩
    by_cases hl : f.q.length < f.cap
    · rw [Enqueued, if_pos hl] at hq
      exact .inl ⟨hl, hq⟩
    · rw [Enqueued, if_neg hl] at hq
      exact .inr hq

/-- An offered event neither creates nor destroys the queue (R171). -/
theorem Offered.fifo_eq_none {o : Option Event} {s t : State} (h : Offered o s t) : t.fifo = none ↔ s.fifo = none := by
  rcases h.appended_or_dropped with ⟨-, hf, -⟩ | ⟨ev, f, -, hf, ⟨-, ht, -⟩ | ⟨ht, -⟩⟩
  · rw [hf]
  · simp [hf, ht]
  · rw [ht]

/-- Every operation keeps the queue and the consumer with the live encoders (R55, R190, R201). -/
theorem Move.shared {s t : State} {i : Instr} (h : Move s i t) (hs : SharedWithEncoders s) : SharedWithEncoders t := by
  obtain ⟨hfifo, hcons⟩ := hs
  cases h with
  | answered _ _ _ => exact ⟨hfifo, hcons⟩
  | stimulus _ _ _ _ ht ho hk _ =>
    obtain ⟨hk, -⟩ := hk
    rw [SharedWithEncoders, ht, hk, putInst_eq_nil, ho.fifo_eq_none]
    exact ⟨hfifo, hcons⟩
  | deq _ hf _ =>
    have hne : s.reg ≠ [] := fun hr => by rw [hfifo.2 hr] at hf; cases hf
    exact ⟨by simp [hne], by simp⟩
  | pubOk hc => exact ⟨hfifo, by simp [← hcons, hc]⟩
  | pubFail hc => exact ⟨hfifo, by simp [← hcons, hc]⟩
  | @init cfg _ _ _ =>
    rcases openIfFirst_cases cfg.qcap s with ⟨-, ho⟩ | ⟨hne, ho⟩
    · simp [SharedWithEncoders, ho]
    · simpa [SharedWithEncoders, ho, hcons, hfifo] using hne
  | @deinit n _ _ =>
    rcases closeIfLast_cases (s.removeInst n) with ⟨hr, ho⟩ | ⟨hne, ho⟩
    · simpa [SharedWithEncoders, ho] using hr
    · have hf : s.fifo ≠ none := fun hf => hne (by simp [dropInst, hfifo.1 hf])
      simpa [SharedWithEncoders, ho, hcons, hf] using hne
  | access _ _ _ => exact ⟨by simpa using hfifo, hcons⟩
  | resetStats => exact ⟨hfifo, hcons⟩

/-- An offered event keeps the queue within its bounds (R171, R172). -/
theorem Offered.bounded {o : Option Event} {s t : State} (h : Offered o s t) (hs : QueueBounded s.fifo) :
    QueueBounded t.fifo := by
  rcases h.appended_or_dropped with ⟨-, ht, -⟩ | ⟨ev, f, -, hf, ⟨hl, ht, -⟩ | ⟨ht, -⟩⟩
  · exact ht ▸ hs
  · rw [hf] at hs
    rw [ht]
    exact ⟨hs.1, by simpa using hl⟩
  · exact ht ▸ hs

/-- Every operation keeps the queue within its bounds (R41, R55). -/
theorem Move.bounded {s t : State} {i : Instr} (h : Move s i t) (hs : QueueBounded s.fifo) : QueueBounded t.fifo := by
  cases h with
  | answered _ _ _ => exact hs
  | stimulus _ _ _ _ _ ho _ _ => exact ho.bounded hs
  | deq _ hf hq =>
    rw [hf] at hs
    obtain ⟨hcap, hlen⟩ := hs
    rw [hq] at hlen
    exact ⟨hcap, Nat.le_of_succ_le hlen⟩
  | pubOk _ => exact hs
  | pubFail _ => exact hs
  | @init cfg _ _ hi =>
    rcases openIfFirst_cases cfg.qcap s with ⟨-, ho⟩ | ⟨-, ho⟩
    · obtain ⟨-, -, -, -, -, -, hqcap⟩ := createInst_checked (checksPass_of_valid hi) 0 0
      simpa [ho, QueueBounded, createInst] using hqcap
    · simpa [ho] using hs
  | @deinit n _ _ =>
    rcases closeIfLast_cases (s.removeInst n) with ⟨-, ho⟩ | ⟨-, ho⟩
    · simp [ho, QueueBounded]
    · simpa [ho] using hs
  | access _ _ _ => exact hs
  | resetStats => exact hs

/-! ## Power-on and the step -/

/-- A well-formed operation keeps the invariants (R36, R55). -/
theorem Move.inv {s t : State} {i : Instr} (h : Move s i t) (hwf : i.wellFormed = true) (hs : s.Inv) : t.Inv := by
  obtain ⟨hrising, hvalid, hlen, hfifo, hcons, hbound⟩ := hs
  obtain ⟨hfifo', hcons'⟩ := h.shared ⟨hfifo, hcons⟩
  refine ⟨h.rising hrising, fun j hj => ?_, h.length_le hlen, hfifo', hcons', h.bounded hbound⟩
  rcases h.mem_reg hj with hj | ⟨r, hr, hw | ha⟩ | ⟨cfg, lvl0, now, rfl, hpass, rfl⟩
  · exact hvalid j hj
  · exact hw.valid (hvalid r hr)
  · exact ha.valid (hvalid r hr)
  · exact createInst_valid hpass hwf lvl0 now

/-- A step that answers a next state is one transition of a well-formed operation: the decoder reads no other (R81, R91). -/
theorem step_next_wellFormed {s t : State} (h : step s = .next t) :
    ∃ i rest, i.wellFormed = true ∧ exec i (s.advance rest) = .next t := by
  have key : ∀ (k : Nat) (s : State), runNext k s = .next t →
      ∃ i rest, i.wellFormed = true ∧ exec i (s.advance rest) = .next t := by
    intro k
    induction k with
    | zero => intro s h; cases h
    | succ k ih =>
      intro s h
      simp only [runNext] at h
      split at h
      · rename_i i rest hd
        rcases unlessDisabled_next h with h | ⟨-, h⟩
        · exact ⟨i, rest, (decodedItemsReencode _ _ _ hd).1, h⟩
        · obtain ⟨j, rest', hj⟩ := ih _ h
          exact ⟨j, rest', hj⟩
      · cases h
  exact key _ _ h

/-- Settles O10: a step is one transition of a well-formed operation, which keeps the invariants (R36, R55). -/
theorem stepKeepsInvariant : Obligations.StepKeepsInvariant := by
  intro s t hinv h
  obtain ⟨i, rest, hwf, hexec⟩ := step_next_wellFormed h
  exact (exec_move hexec).inv hwf hinv

/-- A stimulus leaves what `INIT` checked (R233). -/
theorem Wrote.checked {s : State} {c : Config} {i : Instr} {r r' : Inst} (h : Wrote s r i r') (hc : r.Checked c) :
    r'.Checked c := by
  cases h <;> exact hc

/-- A position command leaves what `INIT` checked (R233). -/
theorem Accessed.checked {c : Config} {i : Instr} {r r' : Inst} (h : Accessed r i r') (hc : r.Checked c) :
    r'.Checked c := by
  cases h <;> exact hc

/-- Settles O11: a register set keeps the checked configuration, and `INIT` creates none without the checks (R192). -/
theorem stepKeepsCheckedConfig : Obligations.StepKeepsCheckedConfig := by
  intro s t hs h j hj
  obtain ⟨i, rest, hexec⟩ := step_next h
  have hm := exec_move hexec
  rw [hm.config]
  rcases hm.mem_reg hj with hj | ⟨r, hr, hw | ha⟩ | ⟨cfg, lvl0, now, -, hpass, rfl⟩
  · exact hs j hj
  · exact hw.checked (hs r hr)
  · exact ha.checked (hs r hr)
  · exact createInst_checked hpass lvl0 now

/-- Settles O8 (R54, R250). -/
theorem powerOnRegisters : Obligations.PowerOnRegisters :=
  ⟨rfl, fun _ => rfl, rfl, rfl, rfl, rfl, rfl, rfl, rfl, rfl⟩

/-- At power-on the invariants hold, whatever the parameters (R250). -/
theorem State.powerOn_inv (c : Config) : (State.powerOn c).Inv := by
  simp [State.Inv, Rising, QueueBounded]

/-- Settles O9: with no encoder and no queue the invariants hold, and each bound on a parameter is in its definition (R7). -/
theorem powerOnMeetsInvariant : Obligations.PowerOnMeetsInvariant := by
  refine ⟨State.powerOn_inv, State.powerOn_inv _, ?_⟩
  simp [State.reset, Config.legal, Config.platform]

end Sys2Proof.Machine
end

section
/-! SUPPORT. The two decoders (41_decoder_lut.md, 42_decoder_counter.md) and the position commands (44_position.md): what one
edge or watch-point does to its encoder, and what sequences of them do. -/

namespace Sys2Proof.Machine

/-! ## One interrupt-side operation -/

/-- What a stimulus that makes a transition has done: it has written the register set of its encoder, offered its event, and
left the rest (R233). -/
theorem exec_stimulus {s t : State} {i : Instr} {n : Nat} {r : Inst} (hc : contextOf i = .interrupt)
    (hn : i.number = some n) (hr : s.inst? n = some r) (h : exec i s = .next t) :
    ∃ r', Wrote s r i r' ∧ OnlyWritten n r' s t ∧ Offered (s.offered i) s t ∧ t.resp = .silent ∧
      KeepsConsumerSide s t := by
  cases exec_move h with
  | answered hc' _ _ => cases hc.symm.trans hc'
  | stimulus hn' hr' _ hw ht ho hk hs =>
    cases hn.symm.trans hn'
    cases hr.symm.trans hr'
    exact ⟨_, hw, onlyWritten_of_reg hr (hw.num.trans (State.inst?_num hr)) ht, ho, hs, hk⟩
  | access _ _ ha => cases hc.symm.trans ha.contextOf_eq
  | _ => cases hc

/-- What `EDGE_AB`, reading the entry `e`, does to its encoder and to the queue (R104). -/
abbrev EdgeAbEffect (n : Nat) (i : Inst) (e : Entry) (s t : State) : Prop :=
  OnlyWritten n { i with st := BitVec.ofNat 4 e.next.val, pos := stepTarget i e.dir } s t ∧
    Offered (motionOffered i e.dir) s t ∧ t.resp = .silent ∧ KeepsConsumerSide s t

/-- The next state's zero extension, as the statements write it (R12). -/
theorem zext4_eq (next : Fin 6) : zext4 next = BitVec.ofNat 4 next.val := by
  revert next
  decide

/-- `EDGE_AB` on a live Strategy A encoder completes with the effect of the entry it reads, if there is a queue or the entry
moves nothing (R104). -/
theorem exec_edgeAb_effect {s : State} {n : Nat} {i : Inst} {row : Fin 6} {e : Entry} {code : BitVec 2}
    (hi : s.inst? n = some i) (ha : i.strategy = .a) (hrow : i.st.toNat = row.val) (he : edgeEntry s.config row code = e)
    (hq : motionOffered i e.dir = none ∨ s.fifo ≠ none) :
    ∃ t, exec (.edgeAb n code) s = .next t ∧ EdgeAbEffect n i e s t := by
  subst he
  have hrow' := rowOf_eq hrow
  have hoff : s.offered (.edgeAb n code) = motionOffered i (edgeEntry s.config row code).dir := by
    simp only [State.offered, hi, ha, hrow']
  obtain ⟨t, ht⟩ := exec_completes (enabled_edgeAb_iff.2 ⟨i, hi, ha, rowOf_isSome.1 ⟨row, hrow'⟩⟩) (hoff ▸ hq)
  obtain ⟨r', hw, honly, ho, hs, hk⟩ := exec_stimulus rfl rfl hi ht
  cases hw with
  | edgeAb _ hrow'' =>
    cases hrow'.symm.trans hrow''
    rw [zext4_eq] at honly
    exact ⟨t, ht, honly, hoff ▸ ho, hs, hk⟩

/-- What `WP` in the direction `d` does to its encoder and to the queue, the count being at the zero point (R122). -/
abbrev WpEffect (n : Nat) (i : Inst) (d : Dir) (s t : State) : Prop :=
  OnlyWritten n { i with pos := stepTarget i d } s t ∧ Offered (motionOffered i d) s t ∧ t.resp = .silent ∧
    KeepsConsumerSide s t

/-- From a count at the zero point the watch-point named fires (R122, R124). -/
theorem wpDir_zero (p : WpPolarity) (w : WatchPoint) : wpDir p 0 w = dirOf p w := by
  cases p <;> cases w <;> rfl

/-- `WP` on a live Strategy B encoder with its count at the zero point completes, if there is a queue or the position stays
(R122). -/
theorem exec_wp_effect {s : State} {n : Nat} {i : Inst} {w : WatchPoint} {d : Dir} (hi : s.inst? n = some i)
    (hb : i.strategy = .b) (hcnt : i.cnt = 0) (hd : dirOf s.config.wpPolarity w = d)
    (hq : motionOffered i d = none ∨ s.fifo ≠ none) : ∃ t, exec (.wp n w) s = .next t ∧ WpEffect n i d s t := by
  have hdir : wpDir s.config.wpPolarity i.cnt w = d := by rw [hcnt, wpDir_zero, hd]
  have hoff : s.offered (.wp n w) = motionOffered i d := by simp only [State.offered, hi, hb, hdir]
  obtain ⟨t, ht⟩ := exec_completes (enabled_wp_iff.2 ⟨i, hi, hb⟩) (hoff ▸ hq)
  obtain ⟨r', hw, honly, ho, hs, hk⟩ := exec_stimulus rfl rfl hi ht
  cases hw with
  | wp _ =>
    rw [hdir, Inst.setCnt, ← hcnt] at honly
    exact ⟨t, ht, honly, hoff ▸ ho, hs, hk⟩

/-! ## What an offered motion event makes of the queue -/

/-- With a queue, the motion event of a step is offered exactly when the position changes (R107, R151). -/
theorem Offered.motionIfMoved {s t : State} {n : Nat} {i : Inst} {d : Dir} {f : Queue} (hn : i.num = n)
    (hf : s.fifo = some f) (h : Offered (motionOffered i d) s t) : MotionIfMoved n i.pos (stepTarget i d) f s t := by
  subst hn
  by_cases hmoved : stepTarget i d = i.pos
  · rw [motionOffered, if_pos hmoved] at h
    rwa [MotionIfMoved, if_pos hmoved]
  · rw [motionOffered, if_neg hmoved] at h
    obtain ⟨f', hf', hq⟩ := h
    cases hf.symm.trans hf'
    rwa [MotionIfMoved, if_neg hmoved]

/-- A step that does not move the position offers nothing (R151). -/
theorem motionOffered_eq_none {i : Inst} {d : Dir} (h : stepTarget i d = i.pos) : motionOffered i d = none := if_pos h

/-- An event offered with a free slot is appended (R171). -/
theorem Offered.appended {s t : State} {ev : Event} {f : Queue} (hf : s.fifo = some f) (hroom : f.q.length < f.cap)
    (h : Offered (some ev) s t) : t.fifo = some ⟨f.cap, f.q ++ [ev]⟩ ∧ t.qDrop = s.qDrop := by
  obtain ⟨f', hf', hq⟩ := h
  cases hf.symm.trans hf'
  rwa [Enqueued, if_pos hroom] at hq

/-- The queue is there in the state, in the form `exec_completes` asks for it. -/
theorem fifo_ne_none {s : State} {f : Queue} (hf : s.fifo = some f) : s.fifo ≠ none := by simp [hf]

/-- A stimulus that offers nothing leaves all that is shared (R105, R233). -/
theorem keepsShared_of_offered_none {s t : State} (ho : Offered none s t) (hk : KeepsConsumerSide s t) : KeepsShared s t := by
  obtain ⟨hf, hd⟩ := ho
  obtain ⟨hc, hp, hm, hb, hctx⟩ := hk
  exact ⟨hf, hc, ⟨hp, hd, hm⟩, hb, hctx⟩

/-! ## Strategy A -/

/-- With `CODE_ORDER = AB` the column of a level code is that of the two levels swapped (R83). -/
theorem columnOf_ab (b a : Level) : columnOf .ab (b ++ a) = a ++ b := by
  revert b a
  decide

/-- Settles O16: the effect of the entry at the column of the level code (R83, R104). -/
theorem edgeAbFollowsTable : Obligations.EdgeAbFollowsTable := by
  intro s n b a i row f e hi ha hrow hf he
  have hentry : edgeEntry s.config row (b ++ a) = e := by
    rw [he, edgeEntry]
    cases s.config.codeOrder with
    | ba => rfl
    | ab => exact congrArg (Table.entry s.config.tt row) (columnOf_ab b a)
  obtain ⟨t, ht, honly, ho, hs, hk⟩ := exec_edgeAb_effect hi ha hrow hentry (.inr (fifo_ne_none hf))
  exact ⟨t, ht, honly, ho.motionIfMoved (State.inst?_num hi) hf, hs, hk⟩

/-- An entry without a direction writes the state nibble alone, and needs no queue (R105). -/
theorem exec_edgeAb_absorbed {s : State} {n : Nat} {i : Inst} {row next : Fin 6} {code : BitVec 2}
    (hi : s.inst? n = some i) (ha : i.strategy = .a) (hrow : i.st.toNat = row.val)
    (he : edgeEntry s.config row code = ⟨next, .none⟩) :
    ∃ t, exec (.edgeAb n code) s = .next t ∧ OnlyWritten n { i with st := BitVec.ofNat 4 next.val } s t ∧
      t.resp = .silent ∧ KeepsShared s t := by
  have hstay : motionOffered i .none = none := motionOffered_eq_none rfl
  obtain ⟨t, ht, honly, ho, hs, hk⟩ := exec_edgeAb_effect hi ha hrow he (.inl hstay)
  exact ⟨t, ht, honly, hs, keepsShared_of_offered_none (hstay ▸ ho) hk⟩

/-- Settles O17: the entry's direction is none, so the event and the decoded step are too (R105). -/
theorem edgeAbNoDirectionAbsorbed : Obligations.EdgeAbNoDirectionAbsorbed :=
  fun _ _ _ _ _ _ hi ha hrow he => exec_edgeAb_absorbed hi ha hrow he

/-- Packing keeps the next state, the direction and a zero top (R84, R85). -/
theorem packed_fields (next : Fin 6) (d : Dir) :
    (0b00#2 ++ Dir.bits d ++ zext4 next : BitVec 8).extractLsb' 6 2 = 0#2 ∧
      Dir.ofBits ((0b00#2 ++ Dir.bits d ++ zext4 next : BitVec 8).extractLsb' 4 2) = some d ∧
      rowOf ((0b00#2 ++ Dir.bits d ++ zext4 next : BitVec 8).extractLsb' 0 4) = some next := by
  revert next
  cases d <;> decide

/-- Settles O19: packing and unpacking field by field; each illegal field has no value (R84, R85, R90, R102). -/
theorem defaultTableUnpacks : Obligations.DefaultTableUnpacks := by
  refine ⟨by decide, fun e => ?_, fun p hp => ?_⟩
  · obtain ⟨htop, hdir, hnext⟩ := packed_fields e.next e.dir
    rw [Entry.unpack, Entry.packed, if_pos htop, hdir, hnext]
  · unfold Entry.unpack
    split
    · rename_i htop
      rcases hp with hnext | hdir | htop'
      · rw [rowOf_eq_none hnext]
      · rw [hdir]
        cases rowOf (p.extractLsb' 0 4) <;> rfl
      · exact absurd htop htop'
    · rfl

/-! ## Sequences of edges under `TT_DEFAULT` -/

/-- A run of two lists, one after the other. -/
theorem execAll_append {is js : List Instr} {s t u : State} (h1 : execAll is s = .next t) (h2 : execAll js t = .next u) :
    execAll (is ++ js) s = .next u := by
  induction is generalizing s with
  | nil =>
    cases h1
    exact h2
  | cons i is ih =>
    rw [List.cons_append, execAll]
    rw [execAll] at h1
    split at h1
    · rename_i v hv
      exact ih h1
    · cases h1
    · split at h1
      · rename_i r hr hd
        simpa [hd] using ih h1
      · cases h1

/-- A run of two operations that both make a transition. -/
theorem execAll_pair {i j : Instr} {s t u : State} (h1 : exec i s = .next t) (h2 : exec j t = .next u) :
    execAll [i, j] s = .next u := by
  simp [execAll, h1, h2]

/-- Two writes of the same encoder's register set: the later stands. -/
theorem OnlyWritten.trans {s t u : State} {n : Nat} {i j : Inst} (h1 : OnlyWritten n i s t) (h2 : OnlyWritten n j t u) :
    OnlyWritten n j s u := by
  obtain ⟨-, hothers, hnumbers⟩ := h1
  obtain ⟨hj, hothers', hnumbers'⟩ := h2
  exact ⟨hj, fun m hm => (hothers' m hm).trans (hothers m hm), hnumbers'.trans hnumbers⟩

theorem KeepsConsumerSide.trans {s t u : State} (h1 : KeepsConsumerSide s t) (h2 : KeepsConsumerSide t u) :
    KeepsConsumerSide s u := by
  obtain ⟨hc, hp, hm, hb, hconfig, hstim⟩ := h1
  obtain ⟨hc', hp', hm', hb', hconfig', hstim'⟩ := h2
  exact ⟨hc'.trans hc, hp'.trans hp, hm'.trans hm, hb'.trans hb, hconfig'.trans hconfig, hstim'.trans hstim⟩

theorem KeepsShared.trans {s t u : State} (h1 : KeepsShared s t) (h2 : KeepsShared t u) : KeepsShared s u := by
  obtain ⟨hf, hc, ⟨hp, hd, hm⟩, hb, hconfig, hstim⟩ := h1
  obtain ⟨hf', hc', ⟨hp', hd', hm'⟩, hb', hconfig', hstim'⟩ := h2
  exact ⟨hf'.trans hf, hc'.trans hc, ⟨hp'.trans hp, hd'.trans hd, hm'.trans hm⟩, hb'.trans hb, hconfig'.trans hconfig,
    hstim'.trans hstim⟩

/-- The parameters are those of `TT_DEFAULT` with `CODE_ORDER = BA` (R83, R103). -/
abbrev DefaultTable (c : Config) : Prop := c.tt = ttDefault ∧ c.codeOrder = .ba

/-- Under those parameters the entry is read at the code itself (R83, R103). -/
theorem edgeEntry_default {c : Config} (h : DefaultTable c) (row : Fin 6) (code : BitVec 2) :
    edgeEntry c row code = Table.entry ttDefault row code := by
  rw [edgeEntry, h.1, h.2, columnOf]

/-- Under `TT_DEFAULT` the codes `c1` and `c2` lead from row `row` to row `last`, the first without a direction, the second with
`d` (R103). -/
abbrev TwoEdges (row : Fin 6) (c1 c2 : BitVec 2) (last : Fin 6) (d : Dir) : Prop :=
  ∃ mid, Table.entry ttDefault row c1 = ⟨mid, .none⟩ ∧ Table.entry ttDefault mid c2 = ⟨last, d⟩

/-- The nibble of a row reads back as the row (R29). -/
theorem ofNat_row_toNat (row : Fin 6) : (BitVec.ofNat 4 row.val).toNat = row.val := by
  rw [← zext4_eq, zext4_toNat]

/-- An absorbed edge on an encoder known up to its state nibble, under `TT_DEFAULT` (R105). -/
theorem exec_edgeAb_default_absorbed {s : State} {n : Nat} {i : Inst} {row next : Fin 6} {code : BitVec 2}
    (hi : s.inst? n = some { i with st := BitVec.ofNat 4 row.val }) (ha : i.strategy = .a) (htt : DefaultTable s.config)
    (he : Table.entry ttDefault row code = ⟨next, .none⟩) :
    ∃ t, exec (.edgeAb n code) s = .next t ∧ OnlyWritten n { i with st := BitVec.ofNat 4 next.val } s t ∧
      KeepsShared s t := by
  obtain ⟨t, ht, honly, -, hk⟩ := exec_edgeAb_absorbed hi ha (ofNat_row_toNat row) ((edgeEntry_default htt row code).trans he)
  exact ⟨t, ht, honly, hk⟩

/-- Two absorbed edges that return to the row they started from leave everything as it was (R109). -/
theorem execAll_returning {s : State} {n : Nat} {i : Inst} {row : Fin 6} {c1 c2 : BitVec 2}
    (hi : s.inst? n = some { i with st := BitVec.ofNat 4 row.val }) (ha : i.strategy = .a) (htt : DefaultTable s.config)
    (he : TwoEdges row c1 c2 row .none) :
    ∃ t, execAll [.edgeAb n c1, .edgeAb n c2] s = .next t ∧ OnlyWritten n { i with st := BitVec.ofNat 4 row.val } s t ∧
      KeepsShared s t := by
  obtain ⟨mid, he1, he2⟩ := he
  obtain ⟨t, ht, h1, k1⟩ := exec_edgeAb_default_absorbed hi ha htt he1
  have ⟨_, _, _, _, hconfig, _⟩ := k1
  obtain ⟨u, hu, h2, k2⟩ := exec_edgeAb_default_absorbed h1.1 ha (hconfig ▸ htt) he2
  exact ⟨u, execAll_pair ht hu, h1.trans h2, k1.trans k2⟩

/-- A bounce and its return, twice over (R109 a). -/
theorem execAll_bounce {s : State} {n : Nat} {i : Inst} {row : Fin 6} {c1 c2 : BitVec 2}
    (hi : s.inst? n = some { i with st := BitVec.ofNat 4 row.val }) (ha : i.strategy = .a) (htt : DefaultTable s.config)
    (he : TwoEdges row c1 c2 row .none) :
    ∃ t, execAll ([.edgeAb n c1, .edgeAb n c2] ++ [.edgeAb n c1, .edgeAb n c2]) s = .next t ∧
      OnlyWritten n { i with st := BitVec.ofNat 4 row.val } s t ∧ KeepsShared s t := by
  obtain ⟨t, ht, h1, k1⟩ := execAll_returning hi ha htt he
  have ⟨_, _, _, _, hconfig, _⟩ := k1
  obtain ⟨u, hu, h2, k2⟩ := execAll_returning h1.1 ha (hconfig ▸ htt) he
  exact ⟨u, execAll_append ht hu, h1.trans h2, k1.trans k2⟩

/-- A register set at rest, its state nibble written out. -/
theorem eq_with_st_zero {i : Inst} (h : i.st = 0#4) : i = { i with st := BitVec.ofNat 4 (0 : Fin 6).val } := by
  cases i
  cases h
  rfl

/-- Settles O21: from the rest row 0 either pin leads to row 1 or 2 and back, without a direction (R109 a). -/
theorem defaultTableAbsorbsBounce : Obligations.DefaultTableAbsorbsBounce := by
  intro s n i hi ha hst htt hba
  rw [eq_with_st_zero hst] at hi ⊢
  exact ⟨execAll_bounce hi ha ⟨htt, hba⟩ (by decide), execAll_bounce hi ha ⟨htt, hba⟩ (by decide)⟩

/-- What one decoded transition from position `i.pos` to `p` does, with a free slot: the encoder ends as `i'`, the event is
appended, the rest is as before (R107, R151). -/
abbrev MovedTo (n : Nat) (i' : Inst) (p : Num) (f : Queue) (s t : State) : Prop :=
  OnlyWritten n i' s t ∧ t.fifo = some ⟨f.cap, f.q ++ [.motion n p]⟩ ∧ t.qDrop = s.qDrop ∧ KeepsConsumerSide s t

/-- The motion event of a step that moves the position, with a free slot, is appended (R107, R151). -/
theorem Offered.motion_appended {s t : State} {n : Nat} {i : Inst} {d : Dir} {p : Num} {f : Queue} (hn : i.num = n)
    (hf : s.fifo = some f) (hroom : f.q.length < f.cap) (htarget : stepTarget i d = p) (hmoved : p ≠ i.pos)
    (h : Offered (motionOffered i d) s t) : t.fifo = some ⟨f.cap, f.q ++ [.motion n p]⟩ ∧ t.qDrop = s.qDrop := by
  subst hn htarget
  rw [motionOffered, if_neg hmoved] at h
  exact h.appended hf hroom

/-- A half cycle under `TT_DEFAULT`: an absorbed edge, then one with a direction that moves the position (R94 b, R108). -/
theorem execAll_halfCycle {s : State} {n : Nat} {i : Inst} {row last : Fin 6} {c1 c2 : BitVec 2} {d : Dir} {p : Num}
    {f : Queue} (hi : s.inst? n = some { i with st := BitVec.ofNat 4 row.val }) (ha : i.strategy = .a)
    (htt : DefaultTable s.config) (he : TwoEdges row c1 c2 last d) (htarget : stepTarget i d = p) (hmoved : p ≠ i.pos)
    (hf : s.fifo = some f) (hroom : f.q.length < f.cap) :
    ∃ t, execAll [.edgeAb n c1, .edgeAb n c2] s = .next t ∧
      MovedTo n { i with st := BitVec.ofNat 4 last.val, pos := p } p f s t := by
  obtain ⟨mid, he1, he2⟩ := he
  obtain ⟨t, ht, h1, hf1, hc1, ⟨hp1, hd1, hm1⟩, hb1, hconfig, hstim⟩ := exec_edgeAb_default_absorbed hi ha htt he1
  have hf2 : t.fifo = some f := hf1.trans hf
  obtain ⟨u, hu, h2, ho, -, k2⟩ := exec_edgeAb_effect h1.1 ha (ofNat_row_toNat mid)
    ((edgeEntry_default (hconfig ▸ htt) mid c2).trans he2) (.inr (fifo_ne_none hf2))
  have htarget' : stepTarget { i with st := BitVec.ofNat 4 mid.val } d = p := (stepTarget_setSt i _ d).trans htarget
  obtain ⟨hq, hd2⟩ := ho.motion_appended (State.inst?_num hi) hf2 hroom htarget' hmoved
  rw [htarget'] at h2
  exact ⟨u, execAll_pair ht hu, h1.trans h2, hq, hd2.trans hd1,
    KeepsConsumerSide.trans ⟨hc1, hp1, hm1, hb1, hconfig, hstim⟩ k2⟩

/-- Two transitions of one encoder that both move the position append two events (R107, R151). -/
theorem MovedTo.trans {s t u : State} {n : Nat} {i i' : Inst} {p p' : Num} {f : Queue} (h1 : MovedTo n i p f s t)
    (h2 : MovedTo n i' p' ⟨f.cap, f.q ++ [.motion n p]⟩ t u) :
    OnlyWritten n i' s u ∧ u.fifo = some ⟨f.cap, f.q ++ [.motion n p, .motion n p']⟩ ∧ u.qDrop = s.qDrop ∧
      KeepsConsumerSide s u := by
  obtain ⟨honly, -, hd, hk⟩ := h1
  obtain ⟨honly', hf', hd', hk'⟩ := h2
  refine ⟨honly.trans honly', ?_, hd'.trans hd, hk.trans hk'⟩
  rw [hf', List.append_assoc, List.cons_append, List.nil_append]

/-- A full cycle under `TT_DEFAULT` from the rest row 0: a half cycle to the rest row 3 and one back, each moving the position
(R94 b, R108). -/
theorem execAll_fullCycle {s : State} {n : Nat} {i : Inst} {c1 c2 c3 c4 : BitVec 2} {d : Dir} {p p' : Num} {f : Queue}
    (hi : s.inst? n = some i) (ha : i.strategy = .a) (hst : i.st = 0#4) (htt : DefaultTable s.config)
    (he : TwoEdges 0 c1 c2 3 d) (he' : TwoEdges 3 c3 c4 0 d)
    (hp : stepTarget i d = p) (hp' : stepTarget (i.setPos p) d = p') (hne : p ≠ i.pos) (hne' : p' ≠ p)
    (hf : s.fifo = some f) (hroom : f.q.length + 2 ≤ f.cap) :
    ∃ t, execAll ([.edgeAb n c1, .edgeAb n c2] ++ [.edgeAb n c3, .edgeAb n c4]) s = .next t ∧
      OnlyWritten n { i with pos := p' } s t ∧ t.fifo = some ⟨f.cap, f.q ++ [.motion n p, .motion n p']⟩ ∧
      t.qDrop = s.qDrop ∧ KeepsConsumerSide s t := by
  have hi' := (eq_with_st_zero hst).symm ▸ hi
  obtain ⟨t, ht, hm⟩ := execAll_halfCycle hi' ha htt he hp hne hf (by omega)
  have ⟨honly, hft, _, _, _, _, _, hconfig, _⟩ := hm
  obtain ⟨u, hu, hm'⟩ := execAll_halfCycle (i := i.setPos p) honly.1 ha (hconfig ▸ htt) he' hp' hne' hft
    (by simp only [List.length_append, List.length_singleton]; omega)
  have hrest : { i.setPos p with st := BitVec.ofNat 4 (0 : Fin 6).val, pos := p' } = { i with pos := p' } := by
    rw [eq_with_st_zero hst]
    rfl
  exact ⟨u, execAll_append ht hu, MovedTo.trans hm (hrest ▸ hm')⟩

/-- A clamp leaves a value between the bounds (R11). -/
theorem clamp_of_mem {lo hi v : Num} (hlo : lo ≤ v) (hhi : v ≤ hi) : clamp lo hi v = v := by
  rw [clamp, if_neg (not_lt.2 hlo), if_neg (not_lt.2 hhi)]

/-- Settles O20: both rotations are full cycles through rows 2 or 1 and 4 or 5, and no step is clamped (R94 b, R108). -/
theorem defaultTableFullCycle : Obligations.DefaultTableFullCycle := by
  intro s n i f hi ha hst htt hba hf hroom hstep hmin hmax
  constructor
  · intro hbound
    exact execAll_fullCycle (d := .cw) hi ha hst ⟨htt, hba⟩ (by decide) (by decide)
      (clamp_of_mem (by linarith) (by linarith)) (clamp_of_mem (by simp; linarith) hbound) (by linarith)
      (by linarith) hf hroom
  · intro hbound
    exact execAll_fullCycle (d := .ccw) hi ha hst ⟨htt, hba⟩ (by decide) (by decide)
      (clamp_of_mem (by linarith) (by linarith)) (clamp_of_mem hbound (by simp; linarith)) (by linarith)
      (by linarith) hf hroom

/-! ## Strategy B -/

/-- Settles O22: the effect of a confirmed step in the direction of its watch-point (R122, R124). -/
theorem wpStepsPosition : Obligations.WpStepsPosition := by
  intro s n w i f d hi hb hcnt hf hd
  have hdir : dirOf s.config.wpPolarity w = d := by
    rw [hd]
    cases s.config.wpPolarity <;> cases w <;> rfl
  obtain ⟨t, ht, honly, ho, hs, hk⟩ := exec_wp_effect hi hb hcnt hdir (.inr (fifo_ne_none hf))
  exact ⟨t, ht, honly, ho.motionIfMoved (State.inst?_num hi) hf, hs, hk⟩

/-- A `WP` that moves the position, with a free slot (R122). -/
theorem exec_wp_moves {s : State} {n : Nat} {i : Inst} {w : WatchPoint} {d : Dir} {p : Num} {f : Queue}
    (hi : s.inst? n = some i) (hb : i.strategy = .b) (hcnt : i.cnt = 0) (hd : dirOf s.config.wpPolarity w = d)
    (htarget : stepTarget i d = p) (hmoved : p ≠ i.pos) (hf : s.fifo = some f) (hroom : f.q.length < f.cap) :
    ∃ t, exec (.wp n w) s = .next t ∧ MovedTo n { i with pos := p } p f s t := by
  obtain ⟨t, ht, honly, ho, -, hk⟩ := exec_wp_effect hi hb hcnt hd (.inr (fifo_ne_none hf))
  obtain ⟨hq, hdrop⟩ := ho.motion_appended (State.inst?_num hi) hf hroom htarget hmoved
  exact ⟨t, ht, htarget ▸ honly, hq, hdrop, hk⟩

/-- Two `WP` whose steps lead from the position to `p` and back (R122). -/
theorem execAll_wp_return {s : State} {n : Nat} {i : Inst} {w w' : WatchPoint} {d d' : Dir} {p : Num} {f : Queue}
    (hi : s.inst? n = some i) (hb : i.strategy = .b) (hcnt : i.cnt = 0) (hd : dirOf s.config.wpPolarity w = d)
    (hd' : dirOf s.config.wpPolarity w' = d') (hgo : stepTarget i d = p) (hback : stepTarget (i.setPos p) d' = i.pos)
    (hmoved : p ≠ i.pos) (hf : s.fifo = some f) (hroom : f.q.length + 2 ≤ f.cap) :
    ∃ t, execAll [.wp n w, .wp n w'] s = .next t ∧ OnlyWritten n i s t ∧
      t.fifo = some ⟨f.cap, f.q ++ [.motion n p, .motion n i.pos]⟩ ∧ t.qDrop = s.qDrop ∧ KeepsConsumerSide s t := by
  obtain ⟨t, ht, hm⟩ := exec_wp_moves hi hb hcnt hd hgo hmoved hf (by omega)
  have ⟨honly, hft, _, _, _, _, _, hconfig, _⟩ := hm
  obtain ⟨u, hu, hm'⟩ := exec_wp_moves (i := i.setPos p) honly.1 hb hcnt (hconfig ▸ hd') hback hmoved.symm hft
    (by simp only [List.length_append, List.length_singleton]; omega)
  exact ⟨u, execAll_pair ht hu, MovedTo.trans hm hm'⟩

/-- Settles O23: neither step is clamped, so the second undoes the first (R122). -/
theorem wpOppositeStepsReturn : Obligations.WpOppositeStepsReturn := by
  intro s n i f hi hb ⟨_, hstep, hmin, hmax, _, hcnt, _⟩ hpol hf hroom
  constructor
  · intro hbound
    exact execAll_wp_return (d := .cw) (d' := .ccw) hi hb hcnt (by rw [hpol]; rfl) (by rw [hpol]; rfl)
      (clamp_of_mem (by linarith) hbound)
      ((clamp_of_mem (by simp; linarith) (by simp; linarith)).trans (add_sub_cancel_right i.pos i.step)) (by linarith) hf hroom
  · intro hbound
    exact execAll_wp_return (d := .ccw) (d' := .cw) hi hb hcnt (by rw [hpol]; rfl) (by rw [hpol]; rfl)
      (clamp_of_mem hbound (by linarith))
      ((clamp_of_mem (by simp; linarith) (by simp; linarith)).trans (sub_add_cancel i.pos i.step)) (by linarith) hf hroom

/-! ## The position model -/

/-- Settles O24: the two cases of a decoded step are those of the minimum and the maximum (R151). -/
theorem decodedStepArithmetic : Obligations.DecodedStepArithmetic := by
  intro i hv
  rw [stepTarget_cw hv, stepTarget_ccw hv, min_def, max_comm, max_def]
  exact ⟨rfl, rfl⟩

/-- A `WP` whose step leads nowhere leaves everything, and needs no queue (R152 a). -/
theorem exec_wp_stays {s : State} {n : Nat} {i : Inst} {w : WatchPoint} {d : Dir} (hi : s.inst? n = some i)
    (hb : i.strategy = .b) (hcnt : i.cnt = 0) (hd : dirOf s.config.wpPolarity w = d) (hstay : stepTarget i d = i.pos) :
    ∃ t, exec (.wp n w) s = .next t ∧ OnlyWritten n i s t ∧ t.resp = .silent ∧ KeepsShared s t := by
  have hoff := motionOffered_eq_none hstay
  obtain ⟨t, ht, honly, ho, hs, hk⟩ := exec_wp_effect hi hb hcnt hd (.inl hoff)
  rw [hstay] at honly
  exact ⟨t, ht, honly, hs, keepsShared_of_offered_none (hoff ▸ ho) hk⟩

/-- Settles O26: on a bound the step outward is clamped to where it starts (R152 a). -/
theorem outwardStepOnBoundSilent : Obligations.OutwardStepOnBoundSilent := by
  intro s n i hi hb hv hpol
  have ⟨_, hstep, _, _, _, hcnt, _⟩ := hv
  refine ⟨fun hbound => exec_wp_stays (d := .cw) hi hb hcnt (by rw [hpol]; rfl) ?_,
    fun hbound => exec_wp_stays (d := .ccw) hi hb hcnt (by rw [hpol]; rfl) ?_⟩
  · rw [stepTarget_cw hv, if_neg (by linarith), hbound]
  · rw [stepTarget_ccw hv, if_neg (by linarith), hbound]

/-- `GET` on a live encoder (R156). -/
theorem exec_get_live {s : State} {n : Nat} {i : Inst} (h : s.inst? n = some i) :
    exec (.get n) s = .next (s.respond (.position i.pos)) := by
  simp [exec, execGet, h]

/-- Settles O28: the two cases of `GET` (R156). -/
theorem getReturnsPosition : Obligations.GetReturnsPosition :=
  fun _ _ => ⟨fun _ h => exec_get_live h, fun h => exec_get_dead h⟩

/-- Writing back a register set under its number writes that one only (R10). -/
theorem onlyWritten_setInst {s : State} {n : Nat} {r r' : Inst} (hr : s.inst? n = some r) (hnum : r'.num = r.num) :
    OnlyWritten n r' s (s.setInst r') :=
  onlyWritten_of_reg hr (hnum.trans (State.inst?_num hr)) rfl

/-- A `SET` that returns `Ok` has written the position of a live encoder (R155, R222). -/
theorem exec_set_ok {s t : State} {n : Nat} {p : Num} (h : exec (.set n p) s = .next t) (hok : t.resp = .result .ok) :
    ∃ i : Inst, t.inst? n = some (i.setPos p) := by
  cases exec_move h with
  | answered _ _ hne => exact absurd hok hne
  | stimulus _ _ hc _ _ _ _ _ => cases hc
  | @access _ _ r _ hn hr ha =>
    cases hn
    cases ha
    exact ⟨r, (onlyWritten_setInst (r' := r.setPos p) hr rfl).1⟩

/-- Settles O31: `SET` that returns `Ok` has written the position that `GET` reads (R155, R156). -/
theorem setThenGetReturnsIt : Obligations.SetThenGetReturnsIt := by
  intro s t n p h hok
  obtain ⟨i, hi⟩ := exec_set_ok h hok
  exact exec_get_live hi

/-- The decoder and button registers of a register set (R112). -/
def Inst.decoderRegisters (r : Inst) : BitVec 4 × Int × Level × Nat × Nat := (r.st, r.cnt, r.btnLevel, r.btnTime, r.deb)

/-- A position command writes no decoder register and no button register (R112). -/
theorem Accessed.decoderRegisters {i : Instr} {r r' : Inst} (h : Accessed r i r') :
    r'.decoderRegisters = r.decoderRegisters := by
  cases h <;> rfl

/-- Settles O32: a position command answers, or writes one register set and none of these registers in it (R112). -/
theorem accessorsLeaveDecoderAlone : Obligations.AccessorsLeaveDecoderAlone := by
  intro s t i n m p min2 max2 step2 hcmd h
  have hc : contextOf i = .caller := by rcases hcmd with rfl | rfl | rfl | rfl <;> rfl
  change (t.inst? m).map Inst.decoderRegisters = (s.inst? m).map Inst.decoderRegisters
  cases exec_move h with
  | answered _ _ _ => rfl
  | stimulus _ _ hc' _ _ _ _ _ => cases hc.symm.trans hc'
  | @access _ k r r' _ hr ha =>
    obtain ⟨hwritten, hothers, -⟩ := onlyWritten_setInst hr ha.num
    rw [State.respond_inst?]
    by_cases hm : m = k
    · rw [hm, hwritten, hr, Option.map_some, Option.map_some, ha.decoderRegisters]
    · rw [hothers m hm]
  | deq _ _ _ => cases hc
  | pubOk _ => cases hc
  | pubFail _ => cases hc
  | _ => rcases hcmd with hcmd | hcmd | hcmd | hcmd <;> cases hcmd

end Sys2Proof.Machine
end

section
/-! SUPPORT. What no operation writes or reads (10_state.md section 1, 60_exceptions.md rules R233, R236): the registers of other
encoders, the parameters, the records of another context. -/

namespace Sys2Proof.Machine

/-! ## Other encoders are not written -/

/-- An operation leaves the register set of an encoder it does not name (R236). -/
theorem Move.other {s t : State} {i : Instr} (h : Move s i t) {m : Nat} (hm : i.number ≠ some m) :
    t.inst? m = s.inst? m := by
  have hne {n : Nat} (hn : i.number = some n) : m ≠ n := by
    rintro rfl
    exact hm hn
  cases h with
  | answered _ _ _ => rfl
  | @stimulus _ _ n r r' hn hr _ hw ht _ _ _ =>
    obtain ⟨-, hothers, -⟩ := onlyWritten_of_reg hr (hw.num.trans (State.inst?_num hr)) ht
    exact hothers m (hne hn)
  | deq _ _ _ => rfl
  | pubOk _ => rfl
  | pubFail _ => rfl
  | @init cfg _ _ _ =>
    exact (State.addInst_inst?_other _ (hne rfl)).trans (State.inst?_congr (openIfFirst_reg cfg.qcap s) m)
  | @deinit n _ _ =>
    exact (State.inst?_congr (closeIfLast_reg (s.removeInst n)) m).trans (s.removeInst_inst?_other (hne rfl))
  | access hn hr ha =>
    obtain ⟨-, hothers, -⟩ := onlyWritten_setInst hr ha.num
    exact hothers m (hne hn)
  | resetStats => rfl

/-- Settles O55 (R236). -/
theorem otherEncodersUntouched : Obligations.OtherEncodersUntouched :=
  fun _ _ _ _ hm h => (exec_move h).other hm

/-- Settles O58: no operation writes the record of the parameters (R47, R76). -/
theorem transitionTableConstant : Obligations.TransitionTableConstant := by
  intro s t i h
  have hconfig := (exec_move h).config
  exact ⟨congrArg Config.tt hconfig, hconfig⟩

/-! ## Other encoders are not read -/

/-- The outcome with its next state, if it is one, changed by `g`. -/
def mapNext (g : State → State) : Host.Outcome State Fault Refusal → Host.Outcome State Fault Refusal
  | .next t => .next (g t)
  | .fault r => .fault r
  | .refused r => .refused r

@[simp] theorem mapNext_next (g : State → State) (t : State) : mapNext g (.next t) = .next (g t) := rfl

/-- A branch on a condition, changed in each branch. -/
theorem mapNext_ite (g : State → State) (c : Prop) [Decidable c] (o o' : Host.Outcome State Fault Refusal) :
    mapNext g (if c then o else o') = if c then mapNext g o else mapNext g o' := by
  split <;> rfl

/-- Two write-backs of different numbers commute. -/
theorem putInst_comm {i j : Inst} (h : i.num ≠ j.num) (reg : List Inst) :
    putInst i (putInst j reg) = putInst j (putInst i reg) := by
  simp only [putInst, List.map_map]
  refine List.map_congr_left fun k _ => ?_
  by_cases hi : k.num = i.num
  · have hj : k.num ≠ j.num := fun e => h (hi.symm.trans e)
    simp [hi, h]
  · by_cases hj : k.num = j.num
    · simp [hj, h.symm]
    · simp [hi, hj]

/-- An insertion compares numbers alone, so it commutes with the write-back of another number. -/
theorem insertInst_putInst {i j : Inst} (h : i.num ≠ j.num) (reg : List Inst) :
    insertInst i (putInst j reg) = putInst j (insertInst i reg) := by
  induction reg with
  | nil => simp [insertInst, putInst, h]
  | cons k ks ih =>
    have hk : putInst j (k :: ks) = (if k.num = j.num then j else k) :: putInst j ks := rfl
    have hnum : (if k.num = j.num then j else k).num = k.num := by
      split
      · exact Eq.symm ‹_›
      · rfl
    rw [hk, insertInst, insertInst, hnum]
    split
    · simp [putInst, h]
    · rw [ih]
      rfl

/-- A removal keeps the register sets of other numbers, written back or not. -/
theorem dropInst_putInst (n : Nat) (j : Inst) (reg : List Inst) :
    dropInst n (putInst j reg) = putInst j (dropInst n reg) := by
  simp only [dropInst, putInst, List.filter_map]
  congr 2
  funext k
  by_cases hk : k.num = j.num <;> simp [hk]

/-- Two write-backs of different encoders commute (R236). -/
theorem State.setInst_setInst_comm {i j : Inst} (h : i.num ≠ j.num) (s : State) :
    (s.setInst j).setInst i = (s.setInst i).setInst j :=
  congrArg (fun reg => { s with reg := reg }) (putInst_comm h s.reg)

@[simp] theorem State.setInst_respond (s : State) (j : Inst) (r : Response) :
    (s.setInst j).respond r = (s.respond r).setInst j := rfl

/-- `enqueue` reads no register set (R171). -/
theorem enqueue_setInst (ev : Event) (s : State) (j : Inst) :
    enqueue ev (s.setInst j) = mapNext (fun t => t.setInst j) (enqueue ev s) := by
  unfold enqueue
  rw [State.setInst_fifo]
  split
  · rfl
  · rw [mapNext_ite]
    rfl

/-- `pos_step` reads and writes the register set of its own encoder (R151). -/
theorem posStep_setInst {i j : Inst} (h : i.num ≠ j.num) (d : Dir) (s : State) :
    posStep i d (s.setInst j) = mapNext (fun t => t.setInst j) (posStep i d s) := by
  simp only [posStep, mapNext_ite, mapNext_next, ← enqueue_setInst]
  rw [State.setInst_setInst_comm (i := i.setPos (stepTarget i d)) h]

/-- `finish` writes the result port alone. -/
theorem finish_setInst_comm (r : Result) (s : State) (j : Inst) :
    finish r (s.setInst j) = mapNext (fun t => t.setInst j) (finish r s) := rfl

/-- The checks of `INIT` read the numbers of the registry alone (R191). -/
theorem initCheckFails_setInst (s : State) (j : Inst) (cfg : InitCfg) :
    InitCheckFails (s.setInst j) cfg ↔ InitCheckFails s cfg := by
  simp only [InitCheckFails, State.setInst_numbers, State.setInst_config]

/-- The opening of the queue and the consumer reads whether an encoder is live, and no register set (R190). -/
theorem openIfFirst_setInst (cap : Nat) (s : State) (j : Inst) :
    openIfFirst cap (s.setInst j) = (openIfFirst cap s).setInst j := by
  rcases openIfFirst_cases cap s with ⟨hr, ho⟩ | ⟨hr, ho⟩
  · rw [ho, openIfFirst_of_nil (by simp [State.numbers_eq_nil, hr])]
    rfl
  · rw [ho, openIfFirst_of_ne_nil (by simp [State.numbers_eq_nil, hr])]

/-- The closing of the queue and the consumer reads whether an encoder is live, and no register set (R201). -/
theorem closeIfLast_setInst (s : State) (j : Inst) : closeIfLast (s.setInst j) = (closeIfLast s).setInst j := by
  rcases closeIfLast_cases s with ⟨hr, ho⟩ | ⟨hr, ho⟩
  · rw [ho, closeIfLast_of_nil (by simp [State.numbers_eq_nil, hr])]
    rfl
  · rw [ho, closeIfLast_of_ne_nil (by simp [State.numbers_eq_nil, hr])]

/-- With the register set of another encoder replaced, an enabled operation answers the same, that register set aside (R236). -/
theorem exec_setInst {i : Instr} {j : Inst} (h : i.number ≠ some j.num) {s : State} (he : enabled i s = true) :
    exec i (s.setInst j) = mapNext (fun t => t.setInst j) (exec i s) := by
  have hread {n : Nat} (hn : i.number = some n) : (s.setInst j).inst? n = s.inst? n :=
    s.setInst_inst?_other fun e => h (e ▸ hn)
  have hother {n : Nat} {r r' : Inst} (hn : i.number = some n) (hr : s.inst? n = some r) (hnum : r'.num = r.num) :
      r'.num ≠ j.num := by
    rw [hnum, State.inst?_num hr]
    exact fun e => h (e ▸ hn)
  cases i with
  | edgeAb n code =>
    obtain ⟨r, hr, ha, hst⟩ := enabled_edgeAb_iff.1 he
    obtain ⟨row, hrow⟩ := rowOf_isSome.2 hst
    have hne (v : BitVec 4) : (r.setSt v).num ≠ j.num := hother rfl hr rfl
    rw [exec_edgeAb_live hr ha hrow, exec_edgeAb_live ((hread rfl).trans hr) ha hrow, mapNext_ite, State.setInst_config,
      State.setInst_setInst_comm (hne (zext4 (edgeEntry s.config row code).next)), State.setInst_respond,
      posStep_setInst (hne (zext4 (edgeEntry s.config row code).next))]
    rfl
  | wp n w =>
    obtain ⟨r, hr, hb⟩ := enabled_wp_iff.1 he
    have hne : (r.setCnt 0).num ≠ j.num := hother rfl hr rfl
    rw [exec_wp_live hr hb, exec_wp_live ((hread rfl).trans hr) hb, State.setInst_config, State.setInst_setInst_comm hne,
      State.setInst_respond, posStep_setInst hne]
  | edgeBtn n lvl now =>
    obtain ⟨r, hr, hb⟩ := enabled_edgeBtn_iff.1 he
    have htime : (r.setBtnTime now).num ≠ j.num := hother rfl hr rfl
    have hlevel : ((r.setBtnLevel lvl).setBtnTime now).num ≠ j.num := hother rfl hr rfl
    rw [exec_edgeBtn_live hr hb, exec_edgeBtn_live ((hread rfl).trans hr) hb, mapNext_ite,
      State.setInst_setInst_comm htime, State.setInst_setInst_comm hlevel, State.setInst_respond, enqueue_setInst]
    rfl
  | deq =>
    obtain ⟨hc, hq⟩ := enabled_deq_iff.1 he
    match hf : s.fifo with
    | none => simp [State.queued, hf] at hq
    | some ⟨cap, []⟩ => simp [State.queued, hf] at hq
    | some ⟨cap, ev :: rest⟩ =>
      rw [exec_deq_waiting hc hf, exec_deq_waiting (s := s.setInst j) hc hf]
      rfl
  | pub answer free =>
    obtain ⟨ev, hc⟩ := enabled_pub_iff.1 he
    cases answer with
    | ok =>
      rw [exec_pub_ok hc, exec_pub_ok (s := s.setInst j) hc]
      rfl
    | fail =>
      rw [exec_pub_fail hc, exec_pub_fail (s := s.setInst j) hc]
      rfl
  | init cfg plat lvl0 now =>
    have hchecks := initCheckFails_setInst s j cfg
    by_cases hfail : InitCheckFails s cfg
    · rw [exec_init_invalid hfail, exec_init_invalid (hchecks.2 hfail)]
      rfl
    · cases plat with
      | fail =>
        rw [exec_init_refused hfail, exec_init_refused (mt hchecks.1 hfail)]
        rfl
      | ok =>
        have hne : cfg.num ≠ j.num := fun e => h (congrArg some e)
        rw [exec_init_ok hfail, exec_init_ok (mt hchecks.1 hfail), openIfFirst_setInst, ← finish_setInst_comm]
        exact congrArg (fun reg => finish .ok { openIfFirst cfg.qcap s with reg := reg })
          (insertInst_putInst (i := createInst s.config cfg lvl0 now) hne _)
  | deinit n =>
    cases hr : s.inst? n with
    | none =>
      rw [exec_deinit_dead hr, exec_deinit_dead ((hread rfl).trans hr)]
      rfl
    | some r =>
      have hdrop : (s.setInst j).removeInst n = (s.removeInst n).setInst j :=
        congrArg (fun reg => { s with reg := reg }) (dropInst_putInst n j s.reg)
      rw [exec_deinit_live hr, exec_deinit_live ((hread rfl).trans hr), hdrop, closeIfLast_setInst, finish_setInst_comm]
  | set n p =>
    cases hr : s.inst? n with
    | none =>
      rw [exec_set_dead hr, exec_set_dead ((hread rfl).trans hr)]
      rfl
    | some r =>
      have hne : (r.setPos p).num ≠ j.num := hother rfl hr rfl
      rw [exec_set_live hr, exec_set_live ((hread rfl).trans hr), mapNext_ite,
        State.setInst_setInst_comm hne, finish_setInst_comm]
      rfl
  | get n =>
    cases hr : s.inst? n with
    | none =>
      rw [exec_get_dead hr, exec_get_dead ((hread rfl).trans hr)]
      rfl
    | some r =>
      rw [exec_get_live hr, exec_get_live ((hread rfl).trans hr)]
      rfl
  | reset n =>
    cases hr : s.inst? n with
    | none =>
      rw [exec_reset_dead hr, exec_reset_dead ((hread rfl).trans hr)]
      rfl
    | some r =>
      have hne : (r.setPos (mid r.min r.max)).num ≠ j.num := hother rfl hr rfl
      rw [exec_reset_live hr, exec_reset_live ((hread rfl).trans hr), State.setInst_setInst_comm hne, finish_setInst_comm]
  | reinit n min2 max2 step2 =>
    cases hr : s.inst? n with
    | none =>
      rw [exec_reinit_dead hr, exec_reinit_dead ((hread rfl).trans hr)]
      rfl
    | some r =>
      have hne : ((r.setRange min2 max2 step2).setPos (mid min2 max2)).num ≠ j.num := hother rfl hr rfl
      rw [exec_reinit_live hr, exec_reinit_live ((hread rfl).trans hr), mapNext_ite,
        State.setInst_setInst_comm hne, finish_setInst_comm]
      rfl
  | getStats => rfl
  | resetStats => rfl

/-- Settles O56: an operation that makes a transition is enabled, and its meaning commutes with the replacement of another
register set (R236). -/
theorem otherEncodersNotRead : Obligations.OtherEncodersNotRead := by
  intro s t i j hj h
  rw [exec_setInst hj (enabled_of_next h), h, mapNext_next]

/-! ## The trace, the counters and the queue -/

/-- Settles O57: of the cases of `Move` only the successful `PUB` writes the trace (R46, R177). -/
theorem busGrowsByPublishing : Obligations.BusGrowsByPublishing := by
  intro s t i h
  cases exec_move h with
  | answered _ _ _ => exact .inl rfl
  | stimulus _ _ _ _ _ _ hk _ =>
    obtain ⟨-, -, -, hbus, -⟩ := hk
    exact .inl hbus
  | deq _ _ _ => exact .inl rfl
  | @pubOk free ev hc => exact .inr ⟨free, ev, rfl, hc, rfl⟩
  | pubFail _ => exact .inl rfl
  | @init cfg _ _ _ =>
    obtain ⟨-, hbus, -⟩ := openIfFirst_keepsRecords cfg.qcap s
    exact .inl hbus
  | @deinit n _ _ =>
    obtain ⟨-, hbus, -⟩ := closeIfLast_keepsRecords (s.removeInst n)
    exact .inl hbus
  | access _ _ _ => exact .inl rfl
  | resetStats => exact .inl rfl

/-- An offered event never lowers the drop count (R45, R171). -/
theorem Offered.qDrop_le {o : Option Event} {s t : State} (h : Offered o s t) : s.qDrop ≤ t.qDrop := by
  rcases h.appended_or_dropped with ⟨-, -, hd⟩ | ⟨_, _, -, -, ⟨-, -, hd⟩ | ⟨-, hd⟩⟩
  · exact hd.ge
  · exact hd.ge
  · exact hd ▸ Nat.le_succ _

/-- A minimum once observed stays observed and does not rise (R179). -/
theorem lowWater_le {o : Option Nat} {m : Nat} (h : o = some m) (free : Nat) : ∃ k, lowWater o free = some k ∧ k ≤ m := by
  subst h
  exact ⟨min m free, rfl, min_le_left m free⟩

/-- Settles O50: the statistics in each case of `Move`, `RESET_STATS` aside (R43 to R45, R179). -/
theorem countersFallOnlyByResetMinimumNeverRises : Obligations.CountersFallOnlyByResetMinimumNeverRises := by
  intro s t i hi h
  have hsame {u : State} (hs : SameStats s u) :
      s.pubFail ≤ u.pubFail ∧ s.qDrop ≤ u.qDrop ∧
        ∀ m, s.minFree = some m → ∃ k, u.minFree = some k ∧ k ≤ m := by
    obtain ⟨hp, hd, hm⟩ := hs
    exact ⟨hp.ge, hd.ge, fun m h => ⟨m, hm.trans h, le_rfl⟩⟩
  cases exec_move h with
  | answered _ _ _ => exact hsame ⟨rfl, rfl, rfl⟩
  | stimulus _ _ _ _ _ ho hk _ =>
    obtain ⟨-, hp, hm, -⟩ := hk
    exact ⟨hp.ge, ho.qDrop_le, fun m h => ⟨m, hm.trans h, le_rfl⟩⟩
  | deq _ _ _ => exact hsame ⟨rfl, rfl, rfl⟩
  | pubOk _ => exact ⟨le_rfl, le_rfl, fun _ h => lowWater_le h _⟩
  | pubFail _ => exact ⟨Nat.le_succ _, le_rfl, fun _ h => lowWater_le h _⟩
  | @init cfg _ _ _ => exact hsame (openIfFirst_keepsRecords cfg.qcap s).1
  | @deinit n _ _ => exact hsame (closeIfLast_keepsRecords (s.removeInst n)).1
  | access _ _ _ => exact hsame ⟨rfl, rfl, rfl⟩
  | resetStats => exact absurd rfl hi

/-- Settles O49 (R206). -/
theorem resetStatsClearsAll : Obligations.ResetStatsClearsAll := fun _ => rfl

/-- The queued events depend on the queue alone. -/
theorem State.queued_congr {s t : State} (h : t.fifo = s.fifo) : t.queued = s.queued := by
  rw [State.queued, State.queued, h]

/-- The queued events of a queue that is there. -/
theorem State.queued_of_some {s : State} {f : Queue} (h : s.fifo = some f) : s.queued = f.q := by
  rw [State.queued, h]

/-- What an offered event makes of the queued ones: nothing, or it joins them at the end (R171). -/
theorem Offered.queued {o : Option Event} {s t : State} (h : Offered o s t) :
    t.queued = s.queued ∨ ∃ ev, o = some ev ∧ t.queued = s.queued ++ [ev] := by
  rcases h.appended_or_dropped with ⟨-, ht, -⟩ | ⟨ev, f, ho, hf, ⟨-, ht, -⟩ | ⟨ht, -⟩⟩
  · exact .inl (State.queued_congr ht)
  · exact .inr ⟨ev, ho, by rw [State.queued_of_some ht, State.queued_of_some hf]⟩
  · exact .inl (State.queued_congr ht)

/-- An event offered carries the number of a live encoder (R55, R86). -/
theorem live_of_offered {s : State} {i : Instr} {ev : Event} (h : s.offered i = some ev) : s.live ev.number = true := by
  obtain ⟨n, r, hr, ho⟩ := offers_of_offered h
  have hmotion {d : Dir} (hm : motionOffered r d = some ev) : ev.number = r.num := by
    unfold motionOffered at hm
    split at hm <;> cases hm
    rfl
  have hnum : ev.number = r.num := by
    cases ho with
    | edgeAb _ _ hm => exact hmotion hm
    | wp _ hm => exact hmotion hm
    | edgeBtn _ _ => rfl
  rw [hnum, State.inst?_num hr, State.live, hr, Option.isSome_some]

/-- Settles O59: an operation puts in the queue only the event it offers (R55, R171). -/
theorem newEventsNameLiveEncoders : Obligations.NewEventsNameLiveEncoders := by
  intro s t i h ev hev
  cases exec_move h with
  | answered _ _ _ => exact .inl hev
  | stimulus _ _ _ _ _ ho _ _ =>
    rcases ho.queued with hq | ⟨ev', hoff, hq⟩
    · exact .inl (hq ▸ hev)
    · rw [hq, List.mem_append, List.mem_singleton] at hev
      rcases hev with hev | rfl
      · exact .inl hev
      · exact .inr (live_of_offered hoff)
  | deq _ hf hq =>
    rw [State.queued_of_some hf, hq]
    exact .inl (List.mem_cons_of_mem _ hev)
  | pubOk _ => exact .inl hev
  | pubFail _ => exact .inl hev
  | @init cfg _ _ _ =>
    rcases openIfFirst_cases cfg.qcap s with ⟨-, ho⟩ | ⟨-, ho⟩
    · simp [State.queued, ho] at hev
    · exact .inl (by simpa [State.queued, ho] using hev)
  | @deinit n _ _ =>
    rcases closeIfLast_cases (s.removeInst n) with ⟨-, ho⟩ | ⟨-, ho⟩
    · simp [State.queued, ho] at hev
    · exact .inl (by simpa [State.queued, ho] using hev)
  | access _ _ _ => exact .inl hev
  | resetStats => exact .inl hev

/-! ## The contexts -/

/-- A stimulus writes no register of its encoder but these five (R233). -/
theorem Wrote.frame {s : State} {i : Instr} {r r' : Inst} (h : Wrote s r i r') :
    r' = { r with st := r'.st, cnt := r'.cnt, pos := r'.pos, btnLevel := r'.btnLevel, btnTime := r'.btnTime } := by
  cases h <;> rfl

/-- A position command writes no register of its encoder but these four (R233). -/
theorem Accessed.frame {i : Instr} {r r' : Inst} (h : Accessed r i r') :
    r' = { r with pos := r'.pos, min := r'.min, max := r'.max, step := r'.step } := by
  cases h <;> rfl

/-- The interrupt side's part of R233. -/
theorem exec_interrupt_writes {s t : State} {i : Instr} (h : exec i s = .next t) (hc : contextOf i = .interrupt) :
    KeepsConsumerSide s t ∧ t.numbers = s.numbers ∧ s.qDrop ≤ t.qDrop ∧
      (t.fifo = s.fifo ∨ ∃ f ev, s.fifo = some f ∧ t.fifo = some ⟨f.cap, f.q ++ [ev]⟩) ∧
      ∀ m r, s.inst? m = some r → ∃ r', t.inst? m = some r' ∧
        r' = { r with st := r'.st, cnt := r'.cnt, pos := r'.pos, btnLevel := r'.btnLevel, btnTime := r'.btnTime } := by
  cases exec_move h with
  | answered hc' _ _ => cases hc.symm.trans hc'
  | @stimulus _ _ n q q' hn hq _ hw ht ho hk _ =>
    obtain ⟨hwritten, hothers, hnumbers⟩ := onlyWritten_of_reg hq (hw.num.trans (State.inst?_num hq)) ht
    refine ⟨hk, hnumbers, ho.qDrop_le, ?_, fun m r hr => ?_⟩
    · rcases ho.appended_or_dropped with ⟨-, hf, -⟩ | ⟨ev, f, -, hf, ⟨-, hf', -⟩ | ⟨hf', -⟩⟩
      · exact .inl hf
      · exact .inr ⟨f, ev, hf, hf'⟩
      · exact .inl hf'
    · by_cases hm : m = n
      · subst hm
        cases hq.symm.trans hr
        exact ⟨q', hwritten, hw.frame⟩
      · exact ⟨r, (hothers m hm).trans hr, rfl⟩
  | access _ _ ha => cases hc.symm.trans ha.contextOf_eq
  | _ => cases hc

/-- The consumer's part of R233. -/
theorem exec_consumer_writes {s t : State} {i : Instr} (h : exec i s = .next t) (hc : contextOf i = .consumer) :
    t.reg = s.reg ∧ t.qDrop = s.qDrop ∧ SameContext s t ∧
      (t.fifo = s.fifo ∨ ∃ f ev rest, s.fifo = some f ∧ f.q = ev :: rest ∧ t.fifo = some ⟨f.cap, rest⟩) := by
  cases exec_move h with
  | answered hc' _ _ => cases hc.symm.trans hc'
  | stimulus _ _ hc' _ _ _ _ _ => cases hc.symm.trans hc'
  | @deq f ev rest _ hf hq => exact ⟨rfl, rfl, ⟨rfl, rfl⟩, .inr ⟨f, ev, rest, hf, hq, rfl⟩⟩
  | pubOk _ => exact ⟨rfl, rfl, ⟨rfl, rfl⟩, .inl rfl⟩
  | pubFail _ => exact ⟨rfl, rfl, ⟨rfl, rfl⟩, .inl rfl⟩
  | access _ _ ha => cases hc.symm.trans ha.contextOf_eq
  | _ => cases hc

/-- What a caller may write of an encoder that stays live (R233). -/
theorem exec_caller_frame {s t : State} {i : Instr} (h : exec i s = .next t) (hc : contextOf i = .caller) {m : Nat}
    {r r' : Inst} (hr : s.inst? m = some r) (hr' : t.inst? m = some r') :
    r' = { r with pos := r'.pos, min := r'.min, max := r'.max, step := r'.step } := by
  have hmove := exec_move h
  by_cases hm : i.number = some m
  · cases hmove with
    | answered _ _ _ =>
      cases hr.symm.trans hr'
      rfl
    | stimulus _ _ hc' _ _ _ _ _ => cases hc.symm.trans hc'
    | init hi =>
      cases hm
      cases hr.symm.trans (inst?_of_checksPass (checksPass_of_valid hi))
    | deinit _ =>
      cases hm
      rw [State.respond_inst?, State.inst?_congr (closeIfLast_reg _), State.removeInst_inst?_same] at hr'
      cases hr'
    | access hn hq ha =>
      cases hm.symm.trans hn
      cases hr.symm.trans hq
      cases (onlyWritten_setInst hq ha.num).1.symm.trans hr'
      exact ha.frame
    | resetStats => cases hm
    | _ => cases hc
  · cases hr.symm.trans ((hmove.other hm).symm.trans hr')
    rfl

/-- Settles O54: each context by its cases of `Move` (R233). -/
theorem contextsWriteTheirOwn : Obligations.ContextsWriteTheirOwn := by
  intro s t i h
  refine ⟨exec_interrupt_writes h, exec_consumer_writes h, fun hc => ⟨?_, (exec_move h).context, ?_⟩⟩
  · rcases busGrowsByPublishing s t i h with hbus | ⟨_, _, rfl, -, -⟩
    · exact hbus
    · cases hc
  · exact fun m r r' hr hr' => exec_caller_frame h hc hr hr'

end Sys2Proof.Machine
end

section
/-! SUPPORT. The button (43_debounce.md): one edge, two edges closer than the threshold, and the levels over a whole run. -/

namespace Sys2Proof.Machine

/-! ## One edge -/

/-- The event an edge on the button of a live encoder offers: one when it is accepted (R136, R139). -/
theorem offered_edgeBtn {s : State} {n : Nat} {i : Inst} (hi : s.inst? n = some i) (hb : i.pinBtn ≠ s.config.pinNone)
    (lvl : Level) (now : Nat) :
    s.offered (.edgeBtn n lvl now) = if Accepted i lvl now then some (.button n lvl) else none := by
  have hbutton : i.hasButton s.config = true := by simpa [Inst.hasButton] using hb
  simp only [State.offered, hi, hbutton, true_and, State.inst?_num hi]
  rfl

/-- `EDGE_BTN` on a live encoder with a button completes, if there is a queue or the edge is rejected (R136, R139). -/
theorem exec_edgeBtn_effect {s : State} {n : Nat} {i : Inst} {lvl : Level} {now : Nat} (hi : s.inst? n = some i)
    (hb : i.pinBtn ≠ s.config.pinNone) (hq : ¬ Accepted i lvl now ∨ s.fifo ≠ none) :
    ∃ t, exec (.edgeBtn n lvl now) s = .next t ∧
      OnlyWritten n { i with btnLevel := if Accepted i lvl now then lvl else i.btnLevel, btnTime := now } s t ∧
      Offered (if Accepted i lvl now then some (.button n lvl) else none) s t ∧ t.resp = .silent ∧
      KeepsConsumerSide s t := by
  have hoff := offered_edgeBtn hi hb lvl now
  obtain ⟨t, ht⟩ := exec_completes (enabled_edgeBtn_iff.2 ⟨i, hi, hb⟩) (hq.imp (fun h => hoff.trans (if_neg h)) id)
  obtain ⟨r', hw, honly, ho, hs, hk⟩ := exec_stimulus rfl rfl hi ht
  refine ⟨t, ht, ?_, hoff ▸ ho, hs, hk⟩
  cases hw with
  | accepted _ hacc =>
    rw [if_pos hacc]
    exact honly
  | rejected _ hrej =>
    rw [if_neg hrej]
    exact honly

/-- Settles O33: the queue being there, the edge completes; it offers its event when it is accepted (R136 to R140). -/
theorem edgeBtnDebounces : Obligations.EdgeBtnDebounces := by
  intro s n lvl now i f hi hb hf
  obtain ⟨t, ht, honly, ho, hs, hk⟩ := exec_edgeBtn_effect (lvl := lvl) (now := now) hi hb (.inr (fifo_ne_none hf))
  refine ⟨t, ht, honly, ?_, hs, hk⟩
  by_cases hacc : Accepted i lvl now
  · rw [if_pos hacc] at ho ⊢
    obtain ⟨f', hf', hq⟩ := ho
    cases hf.symm.trans hf'
    exact hq
  · rw [if_neg hacc] at ho ⊢
    exact ho

/-- Settles O34: the first edge, accepted or not, stores its time and leaves the threshold, so the second is rejected (R143). -/
theorem closerEdgesRejected : Obligations.CloserEdgesRejected := by
  intro s t n l1 l2 now1 now2 i hi hb h _ hclose
  obtain ⟨j, hw, ⟨hj, -, -⟩, -, -, -, -, -, -, hconfig, -⟩ := exec_stimulus rfl rfl hi h
  have hj' : j.btnTime = now1 ∧ j.deb = i.deb ∧ j.pinBtn = i.pinBtn := by cases hw <;> exact ⟨rfl, rfl, rfl⟩
  obtain ⟨htime, hdeb, hpin⟩ := hj'
  have hrej : ¬ Accepted j l2 now2 := by
    rintro ⟨hge, -⟩
    rw [hdeb, htime] at hge
    exact absurd hge (not_le.2 hclose)
  obtain ⟨u, hu, honly, ho, -, hk⟩ := exec_edgeBtn_effect hj (by rwa [hpin, hconfig]) (.inl hrej)
  rw [if_neg hrej] at honly ho
  exact ⟨u, j, hj, hu, honly, keepsShared_of_offered_none ho hk⟩

/-! ## The levels over a run -/

/-- A button event of encoder `n` comes from an accepted edge on its button (R139). -/
theorem accepted_of_offered {s : State} {i : Instr} {ev : Event} {n : Nat} (h : s.offered i = some ev)
    (hn : ev.isButtonOf n = true) :
    ∃ r lvl now, s.inst? n = some r ∧ i = .edgeBtn n lvl now ∧ ev = .button n lvl ∧ Accepted r lvl now := by
  obtain ⟨m, r, hr, ho⟩ := offers_of_offered h
  have hmotion {d : Dir} (hm : motionOffered r d = some ev) : False := by
    unfold motionOffered at hm
    split at hm <;> cases hm
    cases hn
  cases ho with
  | edgeAb _ _ hm => exact (hmotion hm).elim
  | wp _ hm => exact (hmotion hm).elim
  | @edgeBtn lvl now _ hacc =>
    have hnum : r.num = n := by simpa [Event.isButtonOf] using hn
    cases (State.inst?_num hr).symm.trans hnum
    exact ⟨r, lvl, now, hr, rfl, by rw [hnum], hacc⟩

/-- An accepted edge stores its level (R139). -/
theorem btnLevel_of_accepted {s t : State} {n : Nat} {r : Inst} {lvl : Level} {now : Nat} (hr : s.inst? n = some r)
    (hacc : Accepted r lvl now) (h : exec (.edgeBtn n lvl now) s = .next t) :
    ∃ r', t.inst? n = some r' ∧ r'.btnLevel = lvl := by
  obtain ⟨r', hw, ⟨hr', -, -⟩, -⟩ := exec_stimulus rfl rfl hr h
  cases hw with
  | accepted _ _ => exact ⟨_, hr', rfl⟩
  | rejected _ hrej => exact absurd hacc hrej

/-- An operation that makes no button event of a live encoder `n`, and is no `DEINIT` of it, leaves its stored level (R139). -/
theorem btnLevel_kept {s t : State} {i : Instr} {n : Nat} {r : Inst} (hr : s.inst? n = some r) (hi : i ≠ .deinit n)
    (ho : ∀ ev, s.offered i = some ev → ev.isButtonOf n = false) (h : exec i s = .next t) :
    ∃ r', t.inst? n = some r' ∧ r'.btnLevel = r.btnLevel := by
  have hmove := exec_move h
  by_cases hn : i.number = some n
  · cases hmove with
    | answered _ _ _ => exact ⟨r, hr, rfl⟩
    | stimulus _ _ hc _ _ _ _ _ =>
      obtain ⟨r', hw, ⟨hr', -, -⟩, -⟩ := exec_stimulus hc hn hr h
      refine ⟨r', hr', ?_⟩
      cases hw with
      | edgeAb _ _ => rfl
      | wp _ => rfl
      | @accepted _ lvl now hb hacc =>
        cases hn
        have hoff := (offered_edgeBtn hr (by simpa [Inst.hasButton] using hb) lvl now).trans (if_pos hacc)
        simpa [Event.isButtonOf] using ho _ hoff
      | rejected _ _ => rfl
    | init hpass =>
      cases hn
      cases hr.symm.trans (inst?_of_checksPass (checksPass_of_valid hpass))
    | deinit _ =>
      cases hn
      exact absurd rfl hi
    | access hn' hq ha =>
      cases hn.symm.trans hn'
      cases hr.symm.trans hq
      exact ⟨_, (onlyWritten_setInst hr ha.num).1, by cases ha <;> rfl⟩
    | _ => cases hn
  · exact ⟨r, (hmove.other hn).trans hr, rfl⟩

/-- The button events of encoder `n` that a run offers, in order. -/
def buttonEvents (n : Nat) (ops : List Instr) (s : State) : List Event :=
  (offeredAlong ops s).filter (Event.isButtonOf n)

/-- The events alternate, and the first of them does not repeat the level stored for encoder `n`, if it is live (R139). -/
abbrev AlternateFrom (n : Nat) (s : State) (evs : List Event) : Prop :=
  evs.IsChain (fun e e' => e ≠ e') ∧ ∀ r, s.inst? n = some r → ∀ e ∈ evs.head?, .button n r.btnLevel ≠ e

/-- With no event behind it, the run alternates from whatever level is stored. -/
theorem alternateFrom_nil (n : Nat) (s : State) : AlternateFrom n s [] := ⟨.nil, fun _ _ _ he => by cases he⟩

/-- The events a run offers are that of its first operation, if it offers one, and those of the run behind it, if it goes on. -/
theorem offeredAlong_cons (i : Instr) (is : List Instr) (s : State) :
    ∃ evs, offeredAlong (i :: is) s = (s.offered i).toList ++ evs ∧
      ((∃ t, exec i s = .next t ∧ evs = offeredAlong is t) ∨
        (exec i s = .refused .disabled ∧ evs = offeredAlong is s) ∨ evs = []) := by
  refine ⟨_, rfl, ?_⟩
  split
  · exact .inl ⟨_, ‹_›, rfl⟩
  · exact .inr (.inr rfl)
  · split
    · rename_i hr hd
      exact .inr (.inl ⟨hd ▸ hr, rfl⟩)
    · exact .inr (.inr rfl)

/-- An accepted edge in front of a run that alternates from its level (R139). -/
theorem alternateFrom_accepted {n : Nat} {s : State} {r : Inst} {lvl : Level} {evs : List Event} (hr : s.inst? n = some r)
    (hne : lvl ≠ r.btnLevel) (hchain : evs.IsChain (fun e e' => e ≠ e')) (hhead : ∀ e ∈ evs.head?, .button n lvl ≠ e) :
    AlternateFrom n s (.button n lvl :: evs) := by
  refine ⟨hchain.cons hhead, fun q hq e he => ?_⟩
  cases hr.symm.trans hq
  cases he
  exact fun h => hne (Event.button.inj h).2.symm

/-- Over every run without a `DEINIT` of encoder `n` its button events alternate from the stored level (R139). -/
theorem buttonEvents_alternate {n : Nat} {ops : List Instr} (hops : ∀ o ∈ ops, o ≠ .deinit n) (s : State) :
    AlternateFrom n s (buttonEvents n ops s) := by
  induction ops generalizing s with
  | nil => exact alternateFrom_nil n s
  | cons i is ih =>
    have hi : i ≠ .deinit n := hops i List.mem_cons_self
    have ih' := ih fun o ho => hops o (List.mem_cons_of_mem _ ho)
    obtain ⟨evs, hevs, hrest⟩ := offeredAlong_cons i is s
    rw [buttonEvents, hevs, List.filter_append]
    by_cases hbtn : ∃ ev, s.offered i = some ev ∧ ev.isButtonOf n = true
    · obtain ⟨ev, hoff, hev⟩ := hbtn
      obtain ⟨r, lvl, now, hr, rfl, rfl, hacc⟩ := accepted_of_offered hoff hev
      have hone : (s.offered (.edgeBtn n lvl now)).toList.filter (Event.isButtonOf n) = [.button n lvl] := by
        simp [hoff, hev]
      rw [hone, List.singleton_append]
      rcases hrest with ⟨t, ht, rfl⟩ | ⟨hrefused, -⟩ | rfl
      · obtain ⟨r', hr', hlvl⟩ := btnLevel_of_accepted hr hacc ht
        obtain ⟨hchain, hhead⟩ := ih' t
        exact alternateFrom_accepted hr hacc.2 hchain (hlvl ▸ hhead r' hr')
      · cases (offered_of_refused hrefused).symm.trans hoff
      · exact alternateFrom_accepted hr hacc.2 .nil fun _ he => by cases he
    · have hquiet : ∀ ev, s.offered i = some ev → ev.isButtonOf n = false :=
        fun ev hoff => Bool.eq_false_of_not_eq_true fun hev => hbtn ⟨ev, hoff, hev⟩
      have hnone : (s.offered i).toList.filter (Event.isButtonOf n) = [] := by
        simpa [List.filter_eq_nil_iff] using hquiet
      rw [hnone, List.nil_append]
      rcases hrest with ⟨t, ht, rfl⟩ | ⟨-, rfl⟩ | rfl
      · obtain ⟨hchain, hhead⟩ := ih' t
        refine ⟨hchain, fun r hr => ?_⟩
        obtain ⟨r', hr', hlvl⟩ := btnLevel_kept hr hi hquiet ht
        exact hlvl ▸ hhead r' hr'
      · exact ih' s
      · exact alternateFrom_nil n s

/-- Settles O35: the run alternates from the level stored at its start (R139). -/
theorem acceptedLevelsAlternate : Obligations.AcceptedLevelsAlternate :=
  fun s _ _ hops => (buttonEvents_alternate hops s).1

end Sys2Proof.Machine
end

section
/-! SUPPORT. The events on their way to the bus (45_fifo_consumer.md): the consumer's alternation, the order of the events, and
the accounting of R182. -/

namespace Sys2Proof.Machine

/-! ## The consumer and the order of the events -/

/-- With no encoder live there is no queue and no consumer, so no event is on its way (R55). -/
theorem SharedWithEncoders.of_nil {s : State} (hs : SharedWithEncoders s) (hr : s.reg = []) :
    s.fifo = none ∧ s.cons = .absent ∧ s.queued = [] ∧ s.held = [] := by
  obtain ⟨hfifo, hcons⟩ := hs
  have hf := hfifo.2 hr
  have hc := hcons.2 hf
  exact ⟨hf, hc, by rw [State.queued, hf], by rw [State.held, hc]⟩

/-- The invariants place the queue and the consumer with the live encoders (R55). -/
theorem State.Inv.shared {s : State} (h : s.Inv) : SharedWithEncoders s := by
  obtain ⟨-, -, -, hfifo, hcons, -⟩ := h
  exact ⟨hfifo, hcons⟩

/-- The last `DEINIT` closes the queue and the consumer; another one leaves them (R200, R201). -/
theorem closeIfLast_numbers (s : State) :
    ((closeIfLast s).numbers = [] ∧ closeIfLast s = s.closeShared) ∨
      ((closeIfLast s).numbers ≠ [] ∧ closeIfLast s = s) := by
  have hn : (closeIfLast s).numbers = s.numbers := State.numbers_congr (closeIfLast_reg s)
  rw [hn, ne_eq, State.numbers_eq_nil]
  exact closeIfLast_cases s

/-- Settles O40: the consumer in each case of `Move` (R175, R177, R181). -/
theorem consumerAlternates : Obligations.ConsumerAlternates := by
  intro s t i hinv h
  have hcaller {u : State} (hc : contextOf i = .caller) (hu : u.cons = s.cons) :
      u.cons = s.cons ∧ contextOf i ≠ .consumer := ⟨hu, by rw [hc]; decide⟩
  cases exec_move h with
  | answered hc _ _ => exact .inl (hcaller hc rfl)
  | stimulus _ _ hc _ _ _ hk _ => exact .inl ⟨hk.1, by rw [hc]; decide⟩
  | @deq _ ev _ hc _ _ => exact .inr (.inl ⟨rfl, hc, ev, rfl⟩)
  | @pubOk free ev hc => exact .inr (.inr (.inl ⟨.ok, free, ev, rfl, hc, rfl⟩))
  | @pubFail free ev hc => exact .inr (.inr (.inl ⟨.fail, free, ev, rfl, hc, rfl⟩))
  | @init cfg lvl0 now _ =>
    rcases openIfFirst_cases cfg.qcap s with ⟨hr, ho⟩ | ⟨-, ho⟩
    · obtain ⟨-, hc, -⟩ := hinv.shared.of_nil hr
      exact .inr (.inr (.inr (.inl ⟨cfg, .ok, lvl0, now, rfl, hc, by simp [ho]⟩)))
    · exact .inl (hcaller rfl (by simp [ho]))
  | @deinit n _ _ =>
    rcases closeIfLast_numbers (s.removeInst n) with ⟨hlast, ho⟩ | ⟨-, ho⟩
    · exact .inr (.inr (.inr (.inr ⟨n, rfl, hlast, by simp [ho]⟩)))
    · exact .inl (hcaller rfl (by simp [ho]))
  | access _ _ ha => exact .inl (hcaller ha.contextOf_eq rfl)
  | resetStats => exact .inl (hcaller rfl rfl)

/-- The held events depend on the consumer alone. -/
theorem State.held_congr {s t : State} (h : t.cons = s.cons) : t.held = s.held := by
  rw [State.held, State.held, h]

/-- The opening for the first encoder finds no event on its way and brings none (R191). -/
theorem openIfFirst_keeps_events {s : State} (hs : SharedWithEncoders s) (cap : Nat) :
    (openIfFirst cap s).held = s.held ∧ (openIfFirst cap s).queued = s.queued := by
  rcases openIfFirst_cases cap s with ⟨hr, ho⟩ | ⟨-, ho⟩
  · obtain ⟨-, -, hq, hh⟩ := hs.of_nil hr
    rw [ho, hq, hh]
    exact ⟨rfl, rfl⟩
  · rw [ho]
    exact ⟨rfl, rfl⟩

/-- Settles O41: the line of events in each case of `Move` (R181). -/
theorem eventsKeepTheirOrder : Obligations.EventsKeepTheirOrder := by
  intro s t i hinv h
  cases exec_move h with
  | answered _ _ _ => exact .inl rfl
  | stimulus _ _ _ _ _ ho hk _ =>
    obtain ⟨hc, -, -, hb, -⟩ := hk
    rw [State.line, State.line, hb, State.held_congr hc]
    rcases ho.queued with hq | ⟨ev, hoff, hq⟩
    · exact .inl (by rw [hq])
    · exact .inr (.inl ⟨ev, hoff, by rw [hq, List.append_assoc _ _ [ev]]⟩)
  | deq hc hf hq => exact .inl (by simp [State.line, State.held, State.queued, hc, hf, hq])
  | pubOk hc => exact .inl (by simp [State.line, State.held, State.queued, hc])
  | @pubFail free ev hc =>
    exact .inr (.inr (.inl ⟨free, ev, rfl, hc, by simp [State.line, State.held, State.queued]⟩))
  | @init cfg _ _ _ =>
    obtain ⟨-, hb, -⟩ := openIfFirst_keepsRecords cfg.qcap s
    obtain ⟨hh, hq⟩ := openIfFirst_keeps_events hinv.shared cfg.qcap
    refine .inl ?_
    rw [State.line, State.line, ← hb, ← hh, ← hq]
    rfl
  | @deinit n _ _ =>
    rcases closeIfLast_numbers (s.removeInst n) with ⟨hlast, ho⟩ | ⟨-, ho⟩
    · exact .inr (.inr (.inr ⟨n, rfl, hlast, by simp [ho, State.line, State.held, State.queued]⟩))
    · exact .inl (by rw [ho]; rfl)
  | access _ _ _ => exact .inl rfl
  | resetStats => exact .inl rfl

/-! ## The accounting -/

/-- An offered event is queued or counted as dropped (R171, R172). -/
theorem Offered.accounted {o : Option Event} {s t : State} (h : Offered o s t) :
    t.qDrop + t.queued.length = s.qDrop + s.queued.length + o.toList.length := by
  rcases h.appended_or_dropped with ⟨rfl, ht, hd⟩ | ⟨ev, f, rfl, hf, ⟨-, ht, hd⟩ | ⟨ht, hd⟩⟩
  · simp [hd, State.queued_congr ht]
  · simp [hd, State.queued_of_some ht, State.queued_of_some hf, Nat.add_assoc]
  · simp [hd, State.queued_congr ht, Nat.add_right_comm]

/-- Only a `DEINIT` discards events (R182). -/
theorem discarded_eq_zero {i : Instr} (h : ∀ n, i ≠ .deinit n) (s t : State) : discarded i s t = 0 := by
  cases i with
  | deinit n => exact absurd rfl (h n)
  | _ => rfl

/-- An operation that writes the result port alone discards nothing: where no encoder is live, no event is on its way (R55). -/
theorem discarded_respond {s : State} (hs : SharedWithEncoders s) (i : Instr) (r : Response) :
    discarded i s (s.respond r) = 0 := by
  cases i with
  | deinit n =>
    rw [discarded]
    split
    · rename_i hnone
      obtain ⟨-, -, hq, hh⟩ := hs.of_nil (State.numbers_eq_nil.1 hnone)
      rw [hq, hh]
      rfl
    · rfl
  | _ => rfl

/-- The last `DEINIT` discards what is queued and held; another one discards nothing (R180, R201). -/
theorem discarded_deinit (s : State) (n : Nat) :
    ((closeIfLast (s.removeInst n)).respond (.result .ok)).accounted +
      discarded (.deinit n) s ((closeIfLast (s.removeInst n)).respond (.result .ok)) = s.accounted := by
  rw [discarded, State.respond_numbers]
  rcases closeIfLast_numbers (s.removeInst n) with ⟨hlast, ho⟩ | ⟨hlast, ho⟩
  · rw [if_pos hlast, ho]
    simp only [State.accounted, State.queued, State.held, State.respond_bus, State.closeShared_bus, State.removeInst_bus,
      State.respond_pubFail, State.closeShared_pubFail, State.removeInst_pubFail, State.respond_qDrop,
      State.closeShared_qDrop, State.removeInst_qDrop, State.respond_fifo, State.closeShared_fifo, State.respond_cons,
      State.closeShared_cons, List.length_nil]
    omega
  · rw [if_neg hlast, ho]
    rfl

/-- `INIT` accounts for nothing: it opens the queue empty where no event is on its way (R191). -/
theorem accounted_init {s : State} (hs : SharedWithEncoders s) (cap : Nat) : (openIfFirst cap s).accounted = s.accounted := by
  obtain ⟨⟨hp, hd, -⟩, hb, -⟩ := openIfFirst_keepsRecords cap s
  obtain ⟨hh, hq⟩ := openIfFirst_keeps_events hs cap
  rw [State.accounted, State.accounted, hp, hd, hb, hh, hq]

/-- Every operation but `RESET_STATS` accounts for the event it offers and for what a teardown discards (R182). It is enough
that the queue and the consumer are there with the live encoders. -/
theorem Move.accounted {s t : State} {i : Instr} (h : Move s i t) (hs : SharedWithEncoders s) (hi : i ≠ .resetStats) :
    t.accounted + discarded i s t = s.accounted + (s.offered i).toList.length := by
  have hcaller (hc : contextOf i = .caller) : s.offered i = none := s.offered_eq_none (by rw [hc]; decide)
  cases h with
  | answered hc _ _ =>
    rw [hcaller hc, discarded_respond hs]
    rfl
  | stimulus _ _ hc _ _ ho hk _ =>
    obtain ⟨hcons, hp, -, hb, -⟩ := hk
    rw [discarded_eq_zero (by rintro n rfl; cases hc), State.accounted, State.accounted, hb, hp, State.held_congr hcons]
    have := ho.accounted
    omega
  | @deq f ev rest hc hf hq =>
    have hlen : s.queued.length = rest.length + 1 := by rw [State.queued_of_some hf, hq, List.length_cons]
    have hnone : s.held.length = 0 := by rw [State.held, hc, List.length_nil]
    change (s.bus.length + s.pubFail + s.qDrop + rest.length + 1) + 0 = s.accounted + 0
    rw [State.accounted, hlen, hnone]
    omega
  | @pubOk _ ev hc =>
    have hone : s.held.length = 1 := by rw [State.held, hc, List.length_singleton]
    change ((s.bus ++ [ev]).length + s.pubFail + s.qDrop + s.queued.length + 0) + 0 = s.accounted + 0
    rw [State.accounted, hone, List.length_append, List.length_singleton]
    omega
  | @pubFail _ ev hc =>
    have hone : s.held.length = 1 := by rw [State.held, hc, List.length_singleton]
    change (s.bus.length + (s.pubFail + 1) + s.qDrop + s.queued.length + 0) + 0 = s.accounted + 0
    rw [State.accounted, hone]
    omega
  | @init cfg _ _ _ => exact accounted_init hs cfg.qcap
  | @deinit n _ _ => exact discarded_deinit s n
  | access _ _ ha =>
    rw [hcaller ha.contextOf_eq, discarded_eq_zero (by rintro n rfl; cases ha)]
    rfl
  | resetStats => exact absurd rfl hi

/-- Settles O43: the invariants place the queue and the consumer with the live encoders (R182). -/
theorem stepAccountsForEvents : Obligations.StepAccountsForEvents :=
  fun _ _ _ hinv h hi => (exec_move h).accounted hinv.shared hi

/-- A completed run of a list is its first operation and the run behind it; a disabled one goes by (R14). -/
theorem execAll_cons_next {i : Instr} {is : List Instr} {s t : State} (h : execAll (i :: is) s = .next t) :
    (∃ u, exec i s = .next u ∧ execAll is u = .next t) ∨ (exec i s = .refused .disabled ∧ execAll is s = .next t) := by
  rw [execAll] at h
  split at h
  · exact .inl ⟨_, ‹_›, h⟩
  · cases h
  · split at h
    · rename_i hr hd
      exact .inr ⟨hd ▸ hr, h⟩
    · cases h

/-- Over every run without `RESET_STATS` the events accounted for at first and those offered are those accounted for at the
end and those discarded (R182). -/
theorem execAll_accounted {ops : List Instr} (hops : ∀ o ∈ ops, o ≠ .resetStats) {s t : State} (hs : SharedWithEncoders s)
    (h : execAll ops s = .next t) :
    s.accounted + (offeredAlong ops s).length = t.accounted + discardedAlong ops s := by
  induction ops generalizing s with
  | nil =>
    cases h
    rfl
  | cons i is ih =>
    have ih' := @ih fun o ho => hops o (List.mem_cons_of_mem _ ho)
    rcases execAll_cons_next h with ⟨u, hu, hrun⟩ | ⟨hd, hrun⟩
    · have hmove := exec_move hu
      have hone := hmove.accounted hs (hops i List.mem_cons_self)
      have hrest := ih' (hmove.shared hs) hrun
      simp only [offeredAlong, discardedAlong, hu, List.length_append]
      omega
    · have hrest := ih' hs hrun
      simp only [offeredAlong, discardedAlong, hd, offered_of_refused hd, if_true, Option.toList_none, List.nil_append]
      exact hrest

/-- Settles O42: at power-on nothing is accounted for (R182). -/
theorem eventAccounting : Obligations.EventAccounting := by
  intro c ops t h hops
  have hrun := execAll_accounted hops (State.powerOn_inv c).shared h
  have hzero : (State.powerOn c).accounted = 0 := rfl
  rwa [hzero, Nat.zero_add] at hrun

end Sys2Proof.Machine
end

section
/-! SUPPORT. The life of a number (46_registry_stats.md rules R191, R196), and the table of errors (60_exceptions.md rule
R221). -/

namespace Sys2Proof.Machine

/-! ## The life of a number -/

/-- An `INIT` that returns `Ok` has passed its checks and created its register set (R191). -/
theorem exec_init_created {s t : State} {cfg : InitCfg} {plat : Answer} {lvl0 : Level} {now : Nat}
    (h : exec (.init cfg plat lvl0 now) s = .next t) (hok : t.resp = .result .ok) :
    t.inst? cfg.num = some (createInst s.config cfg lvl0 now) := by
  cases exec_move h with
  | answered _ _ hne => exact absurd hok hne
  | stimulus _ _ hc _ _ _ _ _ => cases hc
  | init hi =>
    have hnone : (openIfFirst cfg.qcap s).inst? (createInst s.config cfg lvl0 now).num = none :=
      (State.inst?_congr (openIfFirst_reg cfg.qcap s) cfg.num).trans (inst?_of_checksPass (checksPass_of_valid hi))
    exact State.addInst_inst?_same hnone
  | access _ _ ha => cases ha

/-- Settles O45: the new register set starts at the midpoint (R23, R156). -/
theorem initThenGetIsMidpoint : Obligations.InitThenGetIsMidpoint :=
  fun _ _ _ _ _ _ h hok => exec_get_live (exec_init_created h hok)

/-- A live number is registered (R10, R40). -/
theorem State.mem_numbers_of_live {s : State} {n : Nat} (h : s.live n = true) : n ∈ s.numbers := by
  obtain ⟨i, hi⟩ := Option.isSome_iff_exists.1 h
  exact List.mem_map.2 ⟨i, State.inst?_mem hi, State.inst?_num hi⟩

/-- Settles O46: a registered number fails a check of `INIT`; `DEINIT` takes it out of the registry (R196, R200). -/
theorem duplicateInitRejected : Obligations.DuplicateInitRejected := by
  intro s cfg plat lvl0 now hlive
  constructor
  · have hfail : InitCheckFails s cfg := by simp [InitCheckFails, State.mem_numbers_of_live hlive]
    exact exec_init_invalid hfail plat lvl0 now
  · obtain ⟨i, hi⟩ := Option.isSome_iff_exists.1 hlive
    obtain ⟨-, -, hdeinit⟩ := deinitRemovesEncoder s cfg.num
    obtain ⟨t, ht, -, hgone, -, hnumbers, -⟩ := hdeinit i hi
    exact ⟨t, ht, by rw [State.live, hgone, Option.isSome_none], by simp [hnumbers]⟩

/-! ## The table of errors -/

/-- The rows of the error table: which error a host command answers, and when (R221). -/
inductive ErrorRow (s : State) : Instr → Result → Prop where
  | initInvalid {cfg : InitCfg} {plat : Answer} {lvl0 : Level} {now : Nat} (h : InitCheckFails s cfg) :
      ErrorRow s (.init cfg plat lvl0 now) .invalidArgument
  | initRefused {cfg : InitCfg} {lvl0 : Level} {now : Nat} (h : ¬ InitCheckFails s cfg) :
      ErrorRow s (.init cfg .fail lvl0 now) .resourceExhausted
  | deinitDead {n : Nat} (h : s.inst? n = none) : ErrorRow s (.deinit n) .notInitialized
  | setDead {n : Nat} {p : Num} (h : s.inst? n = none) : ErrorRow s (.set n p) .notInitialized
  | setOutside {n : Nat} {p : Num} {k : Inst} (hk : s.inst? n = some k) (h : p < k.min ∨ k.max < p) :
      ErrorRow s (.set n p) .invalidArgument
  | getDead {n : Nat} (h : s.inst? n = none) : ErrorRow s (.get n) .notInitialized
  | resetDead {n : Nat} (h : s.inst? n = none) : ErrorRow s (.reset n) .notInitialized
  | reinitDead {n : Nat} {min2 max2 step2 : Num} (h : s.inst? n = none) :
      ErrorRow s (.reinit n min2 max2 step2) .notInitialized
  | reinitBad {n : Nat} {min2 max2 step2 : Num} {k : Inst} (hk : s.inst? n = some k) (h : max2 ≤ min2 ∨ step2 ≤ 0) :
      ErrorRow s (.reinit n min2 max2 step2) .invalidArgument

/-- Only a host command returns a result (R220, R221). -/
theorem caller_of_result {s t : State} {i : Instr} {r : Result} (h : exec i s = .next t) (hresp : t.resp = .result r) :
    contextOf i = .caller := by
  cases exec_move h with
  | answered hc _ _ => exact hc
  | stimulus _ _ _ _ _ _ _ hs => cases hresp.symm.trans hs
  | deq _ _ _ => cases hresp
  | pubOk _ => cases hresp
  | pubFail _ => cases hresp
  | access _ _ ha => exact ha.contextOf_eq
  | _ => rfl

/-- The result of an operation that ends in `finish r`. -/
theorem result_of_finish {s t u : State} {i : Instr} {r r' : Result} (h : exec i s = .next t) (hresp : t.resp = .result r)
    (he : exec i s = finish r' u) : r = r' := by
  cases h.symm.trans he
  exact (Response.result.inj hresp).symm

/-- An operation that returns an error is in a row of the table (R221). -/
theorem errorRow_of_exec {s t : State} {i : Instr} {r : Result} (h : exec i s = .next t) (hresp : t.resp = .result r)
    (hr : r ≠ .ok) : ErrorRow s i r := by
  have herr {r' : Result} (he : exec i s = raise r' s) (hrow : ErrorRow s i r') : ErrorRow s i r :=
    result_of_finish h hresp he ▸ hrow
  have hok {u : State} (he : exec i s = finish .ok u) : ErrorRow s i r := absurd (result_of_finish h hresp he) hr
  cases i with
  | edgeAb | wp | edgeBtn | deq | pub => cases caller_of_result h hresp
  | init cfg plat lvl0 now =>
    by_cases hfail : InitCheckFails s cfg
    · exact herr (exec_init_invalid hfail plat lvl0 now) (.initInvalid hfail)
    · cases plat with
      | ok => exact hok (exec_init_ok hfail lvl0 now)
      | fail => exact herr (exec_init_refused hfail lvl0 now) (.initRefused hfail)
  | deinit n =>
    cases hn : s.inst? n with
    | none => exact herr (exec_deinit_dead hn) (.deinitDead hn)
    | some k => exact hok (exec_deinit_live hn)
  | set n p =>
    cases hn : s.inst? n with
    | none => exact herr (exec_set_dead hn p) (.setDead hn)
    | some k =>
      by_cases hout : p < k.min ∨ k.max < p
      · exact herr ((exec_set_live hn p).trans (if_pos hout)) (.setOutside hn hout)
      · exact hok ((exec_set_live hn p).trans (if_neg hout))
  | get n =>
    cases hn : s.inst? n with
    | none => exact herr (exec_get_dead hn) (.getDead hn)
    | some k =>
      cases h.symm.trans (exec_get_live hn)
      cases hresp
  | reset n =>
    cases hn : s.inst? n with
    | none => exact herr (exec_reset_dead hn) (.resetDead hn)
    | some k => exact hok (exec_reset_live hn)
  | reinit n min2 max2 step2 =>
    cases hn : s.inst? n with
    | none => exact herr (exec_reinit_dead hn min2 max2 step2) (.reinitDead hn)
    | some k =>
      by_cases hbad : max2 ≤ min2 ∨ step2 ≤ 0
      · exact herr ((exec_reinit_live hn min2 max2 step2).trans (if_pos hbad)) (.reinitBad hn hbad)
      · exact hok ((exec_reinit_live hn min2 max2 step2).trans (if_neg hbad))
  | getStats =>
    cases h
    cases hresp
  | resetStats =>
    cases h
    cases hresp

/-- Settles O52: `Ok` is no error, and each error is in one of the rows that name it (R221). -/
theorem errorsMatchTheTable : Obligations.ErrorsMatchTheTable := by
  intro s t i r h hresp
  refine ⟨caller_of_result h hresp, ?_⟩
  by_cases hr : r = .ok
  · subst hr
    exact ⟨nofun, nofun, nofun, nofun⟩
  · cases errorRow_of_exec h hresp hr with
    | @initInvalid cfg plat lvl0 now hf => exact ⟨nofun, nofun, nofun, fun _ => .inl ⟨cfg, plat, lvl0, now, rfl, hf⟩⟩
    | @initRefused cfg lvl0 now hp => exact ⟨nofun, fun _ => ⟨cfg, lvl0, now, rfl, hp⟩, nofun, nofun⟩
    | @deinitDead n hn => exact ⟨nofun, nofun, fun _ => ⟨n, hn, .inl rfl⟩, nofun⟩
    | @setDead n p hn => exact ⟨nofun, nofun, fun _ => ⟨n, hn, .inr (.inr (.inr (.inl ⟨p, rfl⟩)))⟩, nofun⟩
    | @setOutside n p k hk hout => exact ⟨nofun, nofun, nofun, fun _ => .inr (.inl ⟨n, p, k, rfl, hk, hout⟩)⟩
    | @getDead n hn => exact ⟨nofun, nofun, fun _ => ⟨n, hn, .inr (.inl rfl)⟩, nofun⟩
    | @resetDead n hn => exact ⟨nofun, nofun, fun _ => ⟨n, hn, .inr (.inr (.inl rfl))⟩, nofun⟩
    | @reinitDead n min2 max2 step2 hn =>
      exact ⟨nofun, nofun, fun _ => ⟨n, hn, .inr (.inr (.inr (.inr ⟨min2, max2, step2, rfl⟩)))⟩, nofun⟩
    | @reinitBad n min2 max2 step2 k hk hbad =>
      exact ⟨nofun, nofun, nofun, fun _ => .inr (.inr ⟨n, min2, max2, step2, k, rfl, hk, hbad⟩)⟩

end Sys2Proof.Machine
end
